-- ==== Sys2Proof/Word.lean ====
section
/-! DEFINITION. The words the block handles and the binary64 numbers it computes with. -/

namespace Sys2Proof

/-- One compressed sample word, `W_WORD` = 32 bits (00_scope.md R6). -/
abbrev Word := BitVec 32

/-- One TimeEncodedItem, `W_ITEM` = 64 bits (00_scope.md R6). -/
abbrev Item := BitVec 64

/-- A binary64 value (00_scope.md R10), as the number it stands for.
Every finite binary64 is a whole number of units of `2^-1074`, its smallest positive value. -/
inductive F64 where
  /-- Not a number. -/
  | nan
  /-- An infinity, negative or positive. -/
  | inf (neg : Bool)
  /-- A finite value: sign, and magnitude in units of `2^-1074`. -/
  | fin (neg : Bool) (units : Nat)
deriving DecidableEq, Repr

/-- The OPEN parameter `HOST_BYTE_ORDER` (20_memory.md R62). -/
inductive ByteOrder where
  /-- The least significant byte of an item lies lowest. -/
  | little
  /-- The most significant byte of an item lies lowest. -/
  | big
deriving DecidableEq, Repr

end Sys2Proof
end

