-- ==== Sys2Proof/Machine/Params.lean ====
section
/-! DEFINITION. The block's fixed parameters (00_scope.md R6), every literal as the spec gives it. -/

namespace Sys2Proof.Machine

/-- `MARKER_LOW`: a marker's low 32 bits (00_scope.md R6, 30_encoding.md R94). -/
def markerLow : BitVec 32 := 0xFFFFFFFF#32

/-- The filler item PAD writes (30_encoding.md R103). -/
def filler : Item := 0x0000000000000000#64

/-- `TICK_US`: the binary64 bits of the literal 10.24 (00_scope.md R6, 42_padding.md R157; log 23). -/
def tickUsBits : BitVec 64 := 0x40247AE147AE147B#64

/-- `US_PER_S`: the binary64 bits of 1000000.0 (00_scope.md R6). -/
def usPerSBits : BitVec 64 := 0x412E848000000000#64

/-- `SR_MAX`: the binary64 bits of 2.0e14, the largest legal `sample_rate` (00_scope.md R6, D9). -/
def srMaxBits : BitVec 64 := 0x42E6BCC41E900000#64

end Sys2Proof.Machine
end

