-- ==== Sys2Proof/Machine/Operands.lean ====
section
/-! DEFINITION. The operand fields and their assembly (30_encoding.md R91 to R96). Every operand of the block is a bit
field of a word or of an item; there is no other operand form. -/

namespace Sys2Proof.Machine

/-- `CSW0`: time_lo, average flag, fft_index, time_hi (30_encoding.md R91). -/
def csw0 (timeLo : BitVec 16) (avg : Bool) (index : BitVec 11) (timeHi : BitVec 4) : Word :=
  (((timeLo ++ BitVec.ofBool avg) ++ index) ++ timeHi : BitVec 32)

/-- `word0[31:16]` (30_encoding.md R91). -/
def timeLoOf (word0 : Word) : BitVec 16 := word0.extractLsb' 16 16

/-- `word0[14:4]` (30_encoding.md R91). -/
def indexOf (word0 : Word) : BitVec 11 := word0.extractLsb' 4 11

/-- `word0[3:0]` (30_encoding.md R91). -/
def timeHiOf (word0 : Word) : BitVec 4 := word0.extractLsb' 0 4

/-- `CSW1_FFT` and `CSW1_AVG`: the high half before the low half (30_encoding.md R92, R93). -/
def csw1 (high low : BitVec 16) : Word := (high ++ low : BitVec 32)

/-- `word1[31:16]`. -/
def highHalf (word1 : Word) : BitVec 16 := word1.extractLsb' 16 16

/-- `word1[15:0]`. -/
def lowHalf (word1 : Word) : BitVec 16 := word1.extractLsb' 0 16

/-- The 20-bit time field, `word0[3:0] ++ word0[31:16]` (30_encoding.md R96, 40_codec.md R121). -/
def codecTime (timeHi : BitVec 4) (timeLo : BitVec 16) : BitVec 20 := (timeHi ++ timeLo : BitVec 20)

/-- `magnitude = word1[15:0] ++ word1[31:16]`: the halves swap (30_encoding.md R96, 40_codec.md R123). -/
def magnitude (high low : BitVec 16) : BitVec 32 := (low ++ high : BitVec 32)

/-- `TEI_MARKER`: the timestamp above the sentinel; the item `M(t)` of 00_scope.md R12 (30_encoding.md R94). -/
def markerItem (ticks : BitVec 32) : Item := (ticks ++ markerLow : BitVec 64)

/-- `timestamp_ticks = item[63:32]` (30_encoding.md R96, 41_marker.md R141). -/
def ticksOf (x : Item) : BitVec 32 := x.extractLsb' 32 32

end Sys2Proof.Machine
end

