-- ==== Sys2Proof/Machine/Flags.lean ====
section
/-! DEFINITION. The block's two indicators (10_state.md R32). It has no flag that is stored: both are recomputed from
the operand every time. -/

namespace Sys2Proof.Machine

/-- The average flag, `word0[15]` (40_codec.md R120). -/
def averageFlag (word0 : Word) : Bool := word0.getLsbD 15

/-- The marker predicate: `item[31:0] = 0xFFFFFFFF` (41_marker.md R140). -/
def isMarker (x : Item) : Bool := x.extractLsb' 0 32 == markerLow

end Sys2Proof.Machine
end

