-- ==== Sys2Proof/Syntax.lean ====
section
/-! DEFINITION. The block's operations, one constructor per row of spec/opcode_table.json (30_encoding.md R97), and
what stands at a unit's interface before it is decoded. -/

namespace Sys2Proof

/-- The input window of a call (20_memory.md R60): its `IN_LEN` items, oldest first, and the byte address the host
maps it to, where it maps it to bytes at all (20_memory.md R63). -/
structure InWindow where
  items : List Item
  base  : Option Nat
deriving DecidableEq, Repr

/-- The output window the host offers with a call (20_memory.md R60): its capacity `OUT_CAP` and its byte address,
where it has one (20_memory.md R63). -/
structure OutSpec where
  cap  : Nat
  base : Option Nat
deriving DecidableEq, Repr

/-- The four units (00_scope.md R2). -/
inductive UnitName where
  | codec
  | det
  | pad
  | tag
deriving DecidableEq, Repr

/-- The operations (30_encoding.md R97). A codec operation carries the fields of its two words (R91 to R93), the
average flag being the constructor; a marker operation carries the timestamp (R94), a data operation the item (R95).
`h` is the host's handle of the instance (60_exceptions.md R231). -/
inductive Instr where
  /-- DEC.FFT (40_codec.md R122). -/
  | decFft (timeLo : BitVec 16) (fftIndex : BitVec 11) (timeHi : BitVec 4) (imag real : BitVec 16)
  /-- DEC.AVG (40_codec.md R123); `ignored` is `word0[14:4]` (30_encoding.md R100). -/
  | decAvg (timeLo : BitVec 16) (ignored : BitVec 11) (timeHi : BitVec 4) (magLo magHi : BitVec 16)
  /-- DET.MARKER (41_marker.md R141). -/
  | detMarker (ticks : BitVec 32)
  /-- DET.DATA (41_marker.md R142). -/
  | detData (item : Item)
  /-- PAD.CONSTRUCT (70_reset_and_hazards.md R250); `rate` is the binary64 of `sample_rate`. -/
  | padConstruct (rate : BitVec 64)
  /-- PAD.CALL (42_padding.md R151). -/
  | padCall (h : Nat) (inp : InWindow) (out : OutSpec)
  /-- PAD.DRAIN (42_padding.md R154). -/
  | padDrain (h : Nat)
  /-- PAD.MARKER (42_padding.md R156). -/
  | padMarker (h : Nat) (ticks : BitVec 32)
  /-- PAD.DATA (42_padding.md R155). -/
  | padData (h : Nat) (item : Item)
  /-- PAD.STATUS (42_padding.md R163). -/
  | padStatus (h : Nat)
  /-- TAG.CONSTRUCT (70_reset_and_hazards.md R250). -/
  | tagConstruct
  /-- TAG.CALL (43_tag.md R193). -/
  | tagCall (h : Nat) (inp : InWindow) (out : OutSpec)
  /-- TAG.MARKER (43_tag.md R192). -/
  | tagMarker (h : Nat) (ticks : BitVec 32)
  /-- TAG.DATA (43_tag.md R191). -/
  | tagData (h : Nat) (item : Item)
  /-- TAG.STATUS (43_tag.md R197). -/
  | tagStatus (h : Nat)
deriving DecidableEq, Repr

/-- What the host may present to a unit's interface (60_exceptions.md R226, the script of 30_encoding.md R106). -/
inductive Request where
  /-- Two words at CODEC's operand ports. -/
  | dec (word0 word1 : Word)
  /-- One item at DET's operand port. -/
  | det (item : Item)
  | padConstruct (rate : BitVec 64)
  | padCall (h : Nat) (inp : InWindow) (out : OutSpec)
  | padStatus (h : Nat)
  | tagConstruct
  | tagCall (h : Nat) (inp : InWindow) (out : OutSpec)
  | tagStatus (h : Nat)
deriving DecidableEq, Repr

/-- What stands at a unit before decoding: a request of the host, or, inside a call, what the instance reads next. -/
inductive Presented where
  | host (r : Request)
  /-- PAD instance `h` owes a filler: selected by state, no input is read (30_encoding.md R97, PAD.DRAIN). -/
  | padOwed (h : Nat)
  /-- PAD instance `h` reads this item. -/
  | padItem (h : Nat) (item : Item)
  /-- TAG instance `h` reads this item. -/
  | tagItem (h : Nat) (item : Item)
deriving DecidableEq, Repr

end Sys2Proof
end

