-- ==== Sys2Proof/WellFormed.lean ====
section
/-! DEFINITION. Which operations an encoding can stand for. -/

namespace Sys2Proof

/-- A data operation carries an item that is not a marker (30_encoding.md R95, R98); every other operand takes every
value of its width (30_encoding.md R99). -/
def Instr.wf : Instr → Bool
  | .decFft _ _ _ _ _ => true
  | .decAvg _ _ _ _ _ => true
  | .detMarker _ => true
  | .detData x => !Machine.isMarker x
  | .padConstruct _ => true
  | .padCall _ _ _ => true
  | .padDrain _ => true
  | .padMarker _ _ => true
  | .padData _ x => !Machine.isMarker x
  | .padStatus _ => true
  | .tagConstruct => true
  | .tagCall _ _ _ => true
  | .tagMarker _ _ => true
  | .tagData _ x => !Machine.isMarker x
  | .tagStatus _ => true

/-- The unit an operation belongs to (30_encoding.md R97). -/
def Instr.unit : Instr → UnitName
  | .decFft _ _ _ _ _ => .codec
  | .decAvg _ _ _ _ _ => .codec
  | .detMarker _ => .det
  | .detData _ => .det
  | .padConstruct _ => .pad
  | .padCall _ _ _ => .pad
  | .padDrain _ => .pad
  | .padMarker _ _ => .pad
  | .padData _ _ => .pad
  | .padStatus _ => .pad
  | .tagConstruct => .tag
  | .tagCall _ _ _ => .tag
  | .tagMarker _ _ => .tag
  | .tagData _ _ => .tag
  | .tagStatus _ => .tag

/-- The unit whose interface something stands at (30_encoding.md R97). -/
def Presented.unit : Presented → UnitName
  | .host (.dec _ _) => .codec
  | .host (.det _) => .det
  | .host (.padConstruct _) => .pad
  | .host (.padCall _ _ _) => .pad
  | .host (.padStatus _) => .pad
  | .host .tagConstruct => .tag
  | .host (.tagCall _ _ _) => .tag
  | .host (.tagStatus _) => .tag
  | .padOwed _ => .pad
  | .padItem _ _ => .pad
  | .tagItem _ _ => .tag

end Sys2Proof
end

