-- ==== Sys2Proof/Decode.lean ====
section
/-! DEFINITION. Decoding, total: the unit invoked and the bits of the operand select the operation (30_encoding.md
R97), and no bit pattern is illegal (R99). The encoder stands after it. -/

namespace Sys2Proof

open Machine

/-- CODEC's selection by the average flag (40_codec.md R120) and the fields of its two words (30_encoding.md R91 to
R93). -/
def decodeSample (word0 word1 : Word) : Instr :=
  if averageFlag word0 then
    .decAvg (timeLoOf word0) (indexOf word0) (timeHiOf word0) (highHalf word1) (lowHalf word1)
  else
    .decFft (timeLoOf word0) (indexOf word0) (timeHiOf word0) (highHalf word1) (lowHalf word1)

/-- The operation of what stands at a unit: the marker row before the data row (30_encoding.md R98). -/
def decode : Presented → Instr
  | .host (.dec word0 word1) => decodeSample word0 word1
  | .host (.det x) => if isMarker x then .detMarker (ticksOf x) else .detData x
  | .host (.padConstruct rate) => .padConstruct rate
  | .host (.padCall h inp out) => .padCall h inp out
  | .host (.padStatus h) => .padStatus h
  | .host .tagConstruct => .tagConstruct
  | .host (.tagCall h inp out) => .tagCall h inp out
  | .host (.tagStatus h) => .tagStatus h
  | .padOwed h => .padDrain h
  | .padItem h x => if isMarker x then .padMarker h (ticksOf x) else .padData h x
  | .tagItem h x => if isMarker x then .tagMarker h (ticksOf x) else .tagData h x

/-- What an operation's encoding puts at its unit (30_encoding.md R91 to R95, R97). -/
def encode : Instr → Presented
  | .decFft timeLo index timeHi imag real => .host (.dec (csw0 timeLo false index timeHi) (csw1 imag real))
  | .decAvg timeLo index timeHi magLo magHi => .host (.dec (csw0 timeLo true index timeHi) (csw1 magLo magHi))
  | .detMarker ticks => .host (.det (markerItem ticks))
  | .detData x => .host (.det x)
  | .padConstruct rate => .host (.padConstruct rate)
  | .padCall h inp out => .host (.padCall h inp out)
  | .padDrain h => .padOwed h
  | .padMarker h ticks => .padItem h (markerItem ticks)
  | .padData h x => .padItem h x
  | .padStatus h => .host (.padStatus h)
  | .tagConstruct => .host .tagConstruct
  | .tagCall h inp out => .host (.tagCall h inp out)
  | .tagMarker h ticks => .tagItem h (markerItem ticks)
  | .tagData h x => .tagItem h x
  | .tagStatus h => .host (.tagStatus h)

/-- The one way a stream of codec words fails to be pairs (40_codec.md R124). -/
inductive StreamError where
  /-- One word is left over: CODEC never decodes one alone (30_encoding.md R102). -/
  | loneWord
deriving DecidableEq, Repr

/-- A stream of compressed sample words, read as the pairs `(w[2k], w[2k+1])` (40_codec.md R124). -/
def decodeStream : List Word → Except StreamError (List Instr)
  | [] => .ok []
  | [_] => .error .loneWord
  | word0 :: word1 :: rest =>
    match decodeStream rest with
    | .ok is => .ok (decodeSample word0 word1 :: is)
    | .error e => .error e

/-- What an encoding of the opcode table's bits puts at a unit: a 32-bit row is `word0` at CODEC with a `word1` of
zeros; a 64-bit row is an item, read at DET, whose port takes an item from the host (the rows of PAD and TAG have the
same bits, and only the unit tells them apart, 30_encoding.md R97; log 1). -/
def tableRequest (nbits w : Nat) : Option Request :=
  if nbits = 32 then some (.dec (BitVec.ofNat 32 w) 0#32)
  else if nbits = 64 then some (.det (BitVec.ofNat 64 w))
  else none

/-- The decoder on an instruction's bits as spec/opcode_table.json numbers them. -/
def decodeTableWord (nbits w : Nat) : Option Instr :=
  match tableRequest nbits w with
  | some r => some (decode (.host r))
  | none => none

end Sys2Proof
end

