-- ==== Sys2Proof/Machine/State.lean ====
section
/-! DEFINITION. The state of the machine: every PAD and TAG instance with its registers and its call in progress
(10_state.md), and what the host has still to do and has been told. -/

namespace Sys2Proof.Machine

/-- Why the machine stops with a fault. The block itself raises no exception (60_exceptions.md R220). -/
inductive Fault where
  /-- An access to a window at an index the window does not have (20_memory.md R60). Raised by a host write of `In`
  beyond `IN_LEN`, and by an instance's access in a state no run reaches. Safe: the machine stops. -/
  | noSuchSlot
deriving DecidableEq, Repr

/-- Why the model gives a host's action no meaning (`refuse(reason)`, 00_scope.md R11, 60_exceptions.md R224). -/
inductive Refusal where
  /-- Raised by an arm of `exec` whose instruction has no meaning yet. Safe. -/
  | notModelled (mnemonic : String)
  /-- `ConcurrentCall`: a call or a status read on an instance with `busy = 1` (R224). Raised by PAD.CALL, TAG.CALL,
  PAD.STATUS and TAG.STATUS. Safe. -/
  | concurrentCall
  /-- `NotConstructed`: an operation on an instance that was never constructed (R224). Safe. -/
  | notConstructed
  /-- `BadSampleRate`: PAD.CONSTRUCT with an illegal `sample_rate` (R224, R250). Safe. -/
  | badSampleRate
  /-- `CallTooLarge`: a call above `MAX_CALL` (R224). Raised by PAD.CALL and TAG.CALL. Safe. -/
  | callTooLarge
  /-- A window mapped to a byte address that is no multiple of 8 (20_memory.md R63). Raised by PAD.CALL and
  TAG.CALL. Safe. -/
  | unalignedWindow
  /-- An in-call operation where 30_encoding.md R97 does not select it. Raised by PAD.DRAIN, PAD.MARKER, PAD.DATA,
  TAG.MARKER and TAG.DATA; no step answers it (log 19). Safe. -/
  | notSelected
deriving DecidableEq, Repr

/-- The outcome of an operation or of a step. -/
abbrev Result (σ : Type) := Host.Outcome σ Fault Refusal

/-- The written slots of an output window: item index and item, indices strictly rising (20_memory.md R61). A slot
that is not listed has not been written by the call: it holds whatever the host left there (R66, log 14). -/
abbrev Memory := List (Nat × Item)

/-- The output window of a call: what the host offered, and the slots written (20_memory.md R60). -/
structure OutWindow where
  cap   : Nat
  base  : Option Nat
  slots : Memory
deriving DecidableEq, Repr

/-- The transient state of a PAD call (10_state.md R40); `IN_LEN` is the number of items of `inp`, `OUT_CAP` is
`out.cap`. -/
structure PadCall where
  i   : Nat
  o   : Nat
  inp : InWindow
  out : OutWindow
deriving DecidableEq, Repr

/-- A PAD instance: PaddingState (10_state.md R33), the call in progress (`busy = 1` exactly when there is one, R42,
log 6), and the refusal that stopped it (60_exceptions.md R224, log 7). -/
structure Pad where
  lastTimestamp  : BitVec 32
  itemsSinceTag  : BitVec 32
  pendingPadding : BitVec 64
  sampleRate     : BitVec 64
  call           : Option PadCall
  refused        : Option Refusal
deriving DecidableEq, Repr

/-- An annotation (30_encoding.md R105); `timeValue` is a binary64. -/
structure Ann where
  offset    : BitVec 64
  timeValue : BitVec 64
deriving DecidableEq, Repr

/-- The transient state of a TAG call (10_state.md R41); `n` is the call's item count `N` (43_tag.md R190). -/
structure TagCall where
  i    : Nat
  r    : Nat
  n    : Nat
  inp  : InWindow
  out  : OutWindow
  anns : List Ann
deriving DecidableEq, Repr

/-- A TAG instance: TagState (10_state.md R38), the call in progress (R42, log 6), and the refusal that stopped it
(60_exceptions.md R224, log 7). -/
structure Tag where
  itemsWrittenTotal : BitVec 64
  call              : Option TagCall
  refused           : Option Refusal
deriving DecidableEq, Repr

/-- What CODEC drives, whatever the kind (40_codec.md R126, log 15); `average` is `kind`. -/
structure CodecPort where
  average   : Bool
  time      : BitVec 20
  fftIndex  : BitVec 11
  real      : BitVec 16
  imag      : BitVec 16
  magnitude : BitVec 32
deriving DecidableEq, Repr

/-- The codec's record, a tagged variant (30_encoding.md R104). -/
inductive SampleRecord where
  | average (time : BitVec 32) (magnitude : BitVec 32)
  | fftBin (time : BitVec 32) (fftIndex : BitVec 16) (real imag : Int)
deriving DecidableEq, Repr

/-- What the block returns to the host (60_exceptions.md R226). -/
inductive Reply where
  /-- CODEC's ports (40_codec.md R126). -/
  | decoded (port : CodecPort)
  /-- DET's ports (41_marker.md R141, R142). -/
  | detected (isMarker : Bool) (timestamp : BitVec 32)
  /-- The handle of a new PAD instance (70_reset_and_hazards.md R250). -/
  | padConstructed (h : Nat)
  /-- A PAD call returns (42_padding.md R159). -/
  | padReturned (h consumed produced : Nat) (out : OutWindow)
  /-- PAD.STATUS (42_padding.md R163). -/
  | padStatus (h : Nat) (last since : BitVec 32) (pending rate : BitVec 64)
  /-- The handle of a new TAG instance (70_reset_and_hazards.md R250). -/
  | tagConstructed (h : Nat)
  /-- A TAG call returns (43_tag.md R194). -/
  | tagReturned (h consumed produced : Nat) (out : OutWindow) (anns : List Ann)
  /-- TAG.STATUS (43_tag.md R197). -/
  | tagStatus (h : Nat) (total : BitVec 64)
deriving DecidableEq, Repr

/-- An agent that takes steps of its own (00_scope.md R3). -/
inductive AgentId where
  | pad (h : Nat)
  | tag (h : Nat)
deriving DecidableEq, Repr

/-- Whose move it is (log 3). -/
inductive Turn where
  /-- The host presents a request (60_exceptions.md R226). -/
  | host (r : Request)
  /-- An instance takes one step of its call. -/
  | agent (a : AgentId)
  /-- The host changes item `k` of the input window of a call in progress, a violation the block cannot detect
  (60_exceptions.md R225, log 17). -/
  | hostWriteIn (a : AgentId) (k : Nat) (x : Item)
deriving DecidableEq, Repr

/-- The machine. An instance's handle is its place in `pads` or `tags` (60_exceptions.md R231, log 10). -/
structure State where
  /-- The constructed PAD instances. -/
  pads     : List Pad
  /-- The constructed TAG instances. -/
  tags     : List Tag
  /-- The model's own: what the block returned to the host, newest first (log 16). -/
  replies  : List Reply
  /-- The model's own: the turns to come (log 3). -/
  schedule : List Turn
  /-- The OPEN parameter `MAX_CALL`, `none` for unbounded (00_scope.md R6, log 9). No operation writes it. -/
  maxCall  : Option Nat
deriving DecidableEq, Repr

/-- Before any construction: the block has no reset input, and its instances begin at their construction
(70_reset_and_hazards.md R251, 10_state.md R44; log 2, log 9, log 16, log 20). -/
def State.reset : State :=
  { pads := [], tags := [], replies := [], schedule := [], maxCall := none }

end Sys2Proof.Machine
end

