-- ==== Sys2Proof/Machine/Ops.lean ====
section
/-! DEFINITION. The shared operations: windows, instances and the host's replies, the refusals of the host contract
(60_exceptions.md R224), and what an instance does next in its call (30_encoding.md R97).

Taking an exception and returning from one: the block has neither. No operation raises an exception (R220), no state
is saved, no mode changes and no handler runs (R223); so there is no such operation here. -/

namespace Sys2Proof.Machine

/-! ## Windows (20_memory.md R60) -/

/-- What slot `k` holds, if the call has written it (20_memory.md R66). -/
def Memory.read : Memory → Nat → Option Item
  | [], _ => none
  | (a, x) :: rest, k => if a = k then some x else Memory.read rest k

/-- Write one whole item at index `k` (20_memory.md R64), keeping the indices strictly rising. -/
def Memory.write : Memory → Nat → Item → Memory
  | [], k, x => [(k, x)]
  | (a, y) :: rest, k, x =>
    if k < a then (k, x) :: (a, y) :: rest
    else if k = a then (k, x) :: rest
    else (a, y) :: Memory.write rest k x

/-- The canonical form: indices strictly rising. An unlisted slot reads as no value, so no entry repeats what an
unlisted slot reads as. -/
def Memory.wf : Memory → Bool
  | [] => true
  | [_] => true
  | (a, _) :: (b, y) :: rest => decide (a < b) && Memory.wf ((b, y) :: rest)

/-- `Out[k] <- x` (00_scope.md R11); there is no slot at or above `OUT_CAP` (20_memory.md R60). -/
def OutWindow.write (w : OutWindow) (k : Nat) (x : Item) : Option OutWindow :=
  if k < w.cap then some { w with slots := Memory.write w.slots k x } else none

/-- A call's output window at its start: nothing written (20_memory.md R66). -/
def openWindow (out : OutSpec) : OutWindow := { cap := out.cap, base := out.base, slots := [] }

/-- The host replaces item `k` of the input window (60_exceptions.md R225). -/
def replaceItem (w : InWindow) (k : Nat) (x : Item) : InWindow := { w with items := w.items.set k x }

/-- A window that is not mapped to bytes, or is mapped at a multiple of 8 (20_memory.md R63). -/
def alignedBase : Option Nat → Bool
  | none => true
  | some a => a % 8 == 0

/-! ## Instances and replies -/

/-- The one-bit `busy` indicator (10_state.md R42). -/
def Pad.busy (p : Pad) : Bool := p.call.isSome

/-- The one-bit `busy` indicator (10_state.md R42). -/
def Tag.busy (t : Tag) : Bool := t.call.isSome

/-- `pending_padding > 0` as a signed number: a filler is owed (10_state.md R36). -/
def Pad.owes (p : Pad) : Bool := decide (0 < p.pendingPadding.toInt)

/-- A PAD instance right after construction (10_state.md R44). -/
def Pad.fresh (rate : BitVec 64) : Pad :=
  { lastTimestamp := 0#32, itemsSinceTag := 0#32, pendingPadding := 0#64, sampleRate := rate,
    call := none, refused := none }

/-- A TAG instance right after construction (10_state.md R44). -/
def Tag.fresh : Tag := { itemsWrittenTotal := 0#64, call := none, refused := none }

/-- A PAD call's transient state at its start (10_state.md R40). -/
def PadCall.start (inp : InWindow) (out : OutSpec) : PadCall := { i := 0, o := 0, inp := inp, out := openWindow out }

/-- A TAG call's transient state at its start (10_state.md R41, 43_tag.md R190). -/
def TagCall.start (inp : InWindow) (out : OutSpec) : TagCall :=
  { i := 0, r := 0, n := min inp.items.length out.cap, inp := inp, out := openWindow out, anns := [] }

def State.setPad (s : State) (h : Nat) (p : Pad) : State := { s with pads := s.pads.set h p }

def State.setTag (s : State) (h : Nat) (t : Tag) : State := { s with tags := s.tags.set h t }

/-- The block returns a value to the host. -/
def State.reply (s : State) (r : Reply) : State := { s with replies := r :: s.replies }

/-! ## The host contract (60_exceptions.md R224) -/

/-- An operation on PAD instance `h`: refused if there is none, and refused for good once refused. -/
def State.onPad (s : State) (h : Nat) (act : Pad → Result State) : Result State :=
  match s.pads[h]? with
  | none => .refused .notConstructed
  | some p =>
    match p.refused with
    | some r => .refused r
    | none => act p

/-- An operation on TAG instance `h`: refused if there is none, and refused for good once refused. -/
def State.onTag (s : State) (h : Nat) (act : Tag → Result State) : Result State :=
  match s.tags[h]? with
  | none => .refused .notConstructed
  | some t =>
    match t.refused with
    | some r => .refused r
    | none => act t

/-- `if busy = 1 then refuse(ConcurrentCall)` (42_padding.md R151, R163; 43_tag.md R193, R197). -/
def unlessBusy (busy : Bool) (res : Result State) : Result State :=
  if busy then .refused .concurrentCall else res

/-- `IN_LEN` or `OUT_CAP` above `MAX_CALL` (60_exceptions.md R224, D21). -/
def tooLarge (maxCall : Option Nat) (inp : InWindow) (out : OutSpec) : Bool :=
  match maxCall with
  | none => false
  | some m => decide (m < inp.items.length) || decide (m < out.cap)

/-- The checks of a call's windows: their size (60_exceptions.md R224), then their alignment (20_memory.md R63;
log 8). -/
def State.ifFits (s : State) (inp : InWindow) (out : OutSpec) (res : Result State) : Result State :=
  if tooLarge s.maxCall inp out then .refused .callTooLarge
  else if alignedBase inp.base && alignedBase out.base then res
  else .refused .unalignedWindow

/-! ## What an instance does next in its call (30_encoding.md R97) -/

/-- Exactly one operation or the end of the call applies (30_encoding.md R97). -/
inductive Selected where
  | op (p : Presented)
  | finish
  /-- An index the input window does not have; only in a state no run reaches (log 21). -/
  | noSlot
deriving DecidableEq, Repr

/-- The choice of 42_padding.md R151: an owed drain first, then the stop, then the next item. -/
def padSelect (h : Nat) (p : Pad) (c : PadCall) : Selected :=
  if p.owes then (if c.o < c.out.cap then .op (.padOwed h) else .finish)
  else if c.o < c.out.cap then
    match c.inp.items[c.i]? with
    | some x => .op (.padItem h x)
    | none => .finish
  else .finish

/-- The choice of 43_tag.md R193: the items below `N` in order, then the end. -/
def tagSelect (h : Nat) (c : TagCall) : Selected :=
  if c.i < c.n then
    match c.inp.items[c.i]? with
    | some x => .op (.tagItem h x)
    | none => .noSlot
  else .finish

/-- An in-call operation of PAD instance `h` runs where it is selected, and has no meaning elsewhere (30_encoding.md
R97, log 19, log 25). -/
def State.padStep (s : State) (h : Nat) (i : Instr) (act : Pad → PadCall → Result State) : Result State :=
  s.onPad h fun p =>
    match p.call with
    | none => .refused .notSelected
    | some c => if padSelect h p c = .op (encode i) ∧ i.wf = true then act p c else .refused .notSelected

/-- An in-call operation of TAG instance `h` runs where it is selected, and has no meaning elsewhere (30_encoding.md
R97, log 19, log 25). -/
def State.tagStep (s : State) (h : Nat) (i : Instr) (act : Tag → TagCall → Result State) : Result State :=
  s.onTag h fun t =>
    match t.call with
    | none => .refused .notSelected
    | some c => if tagSelect h c = .op (encode i) ∧ i.wf = true then act t c else .refused .notSelected

/-- `Out[k] <- x` and then `act`; a slot the window does not have is a fault (log 21). -/
def OutWindow.writeThen (w : OutWindow) (k : Nat) (x : Item) (act : OutWindow → Result State) : Result State :=
  match w.write k x with
  | some w' => act w'
  | none => .fault .noSuchSlot

end Sys2Proof.Machine
end

