-- ==== Sys2Proof/Machine/Codec.lean ====
section
/-! DEFINITION. CODEC (40_codec.md). -/

namespace Sys2Proof.Machine

/-- What CODEC drives from the fields of its two words, whatever the kind (40_codec.md R126, 30_encoding.md R96). -/
def codecPort (avg : Bool) (timeLo : BitVec 16) (index : BitVec 11) (timeHi : BitVec 4) (high low : BitVec 16) :
    CodecPort :=
  { average := avg
    time := codecTime timeHi timeLo
    fftIndex := index
    real := low
    imag := high
    magnitude := magnitude high low }

/-- The tagged variant that `kind` names (30_encoding.md R104; 40_codec.md R122, R123): unsigned fields widened with
zeros, `real` and `imag` read as two's complement. -/
def CodecPort.record (p : CodecPort) : SampleRecord :=
  if p.average then .average (p.time.setWidth 32) p.magnitude
  else .fftBin (p.time.setWidth 32) (p.fftIndex.setWidth 16) p.real.toInt p.imag.toInt

/-- DEC.FFT (40_codec.md R122): no state is written. -/
def execDecFft (timeLo : BitVec 16) (index : BitVec 11) (timeHi : BitVec 4) (imag real : BitVec 16) (s : State) :
    Result State :=
  .next (s.reply (.decoded (codecPort false timeLo index timeHi imag real)))

/-- DEC.AVG (40_codec.md R123): no state is written. -/
def execDecAvg (timeLo : BitVec 16) (ignored : BitVec 11) (timeHi : BitVec 4) (magLo magHi : BitVec 16) (s : State) :
    Result State :=
  .next (s.reply (.decoded (codecPort true timeLo ignored timeHi magLo magHi)))

end Sys2Proof.Machine
end

