-- ==== Sys2Proof/Machine/Det.lean ====
section
/-! DEFINITION. DET (41_marker.md). -/

namespace Sys2Proof.Machine

/-- DET.MARKER (41_marker.md R141). -/
def execDetMarker (ticks : BitVec 32) (s : State) : Result State := .next (s.reply (.detected true ticks))

/-- DET.DATA (41_marker.md R142): `marker_timestamp` is driven by `item[63:32]` and means nothing (R143,
log 15). -/
def execDetData (x : Item) (s : State) : Result State := .next (s.reply (.detected false (ticksOf x)))

end Sys2Proof.Machine
end

