-- ==== Sys2Proof/Config.lean ====
section
/-! DEFINITION. The free values: what 00_scope.md R10 leaves without a value. The spec's fixed parameters
(00_scope.md R6) stand in Machine/Params.lean, where a repair may mend them. -/

namespace Sys2Proof.Config

/-- The `i64` that `to_i64` gives outside its stated range `[-2^63, 2^63)`, and for a value that is no number
(00_scope.md R10 states neither). A free value, log 12. A legal `sample_rate` never meets it (42_padding.md R158). -/
opaque toI64Unstated : F64 → BitVec 64

/-- The 64 bits that encode a NaN; the spec chooses none. A free value, log 12. -/
opaque nanBits : BitVec 64

end Sys2Proof.Config
end

