-- ==== Sys2Proof/Machine/Float.lean ====
section
/-! DEFINITION. Binary64 arithmetic as far as the block uses it (00_scope.md R10): multiplication and division rounded
to nearest, ties to even; round half away from zero; conversion to `i64`. Magnitudes are exact natural numbers in
units of `2^-1074`, and one function rounds. -/

namespace Sys2Proof.Machine

/-- The number of units of `2^-1074` in 1. -/
def unitsPerOne : Nat := 2 ^ 1074

/-- The first magnitude above every finite binary64, `2^1024`, in units. -/
def overflowUnits : Nat := 2 ^ 2098

/-- The quotient `num / den` rounded to the nearest whole number, a tie to the even one. -/
def divNearestEven (num den : Nat) : Nat :=
  let k := num / den
  let r := num % den
  if den < 2 * r ∨ (2 * r = den ∧ k % 2 = 1) then k + 1 else k

/-- How many low bits a magnitude of `n` units loses when it is cut to 53 significant bits. -/
def lostBits (n : Nat) : Nat := Nat.log2 n - 52

/-- `num / den` units rounded to 53 significant bits, to nearest, ties to even (00_scope.md R10). -/
def roundUnits (num den : Nat) : Nat :=
  let e := lostBits (num / den)
  divNearestEven num (den * 2 ^ e) * 2 ^ e

/-- The binary64 nearest to `num / den` units; above the largest finite one, an infinity (log 13). -/
def roundF64 (neg : Bool) (num den : Nat) : F64 :=
  if roundUnits num den < overflowUnits then .fin neg (roundUnits num den) else .inf neg

/-- The value of 64 bits (binary64: sign, 11 bits of exponent, 52 of fraction; log 13). -/
def f64OfBits (b : BitVec 64) : F64 :=
  let neg := b.getLsbD 63
  let e := (b.extractLsb' 52 11).toNat
  let f := (b.extractLsb' 0 52).toNat
  if e = 2047 then (if f = 0 then .inf neg else .nan)
  else if e = 0 then .fin neg f
  else .fin neg ((2 ^ 52 + f) * 2 ^ (e - 1))

/-- Exponent and fraction of a magnitude of at most 53 significant bits: a step of the exponent adds `2^52`. -/
def packUnits (n : Nat) : Nat := lostBits n * 2 ^ 52 + n / 2 ^ lostBits n

/-- A sign above 63 bits. -/
def withSign (neg : Bool) (magnitude : Nat) : BitVec 64 :=
  BitVec.ofNat 64 ((if neg then 2 ^ 63 else 0) + magnitude)

/-- The 64 bits of a value; those of a NaN are a free value (log 12). -/
def f64ToBits : F64 → BitVec 64
  | .nan => Config.nanBits
  | .inf neg => withSign neg (2047 * 2 ^ 52)
  | .fin neg n => withSign neg (packUnits n)

/-- `a *f b` (00_scope.md R10; infinities and NaN as IEEE 754 has them, log 13). -/
def f64Mul : F64 → F64 → F64
  | .fin s a, .fin t b => roundF64 (s != t) (a * b) unitsPerOne
  | .fin s a, .inf t => if a = 0 then .nan else .inf (s != t)
  | .inf s, .fin t b => if b = 0 then .nan else .inf (s != t)
  | .inf s, .inf t => .inf (s != t)
  | .nan, _ => .nan
  | _, .nan => .nan

/-- `a /f b` (00_scope.md R10; infinities, NaN and division by zero as IEEE 754 has them, log 13). -/
def f64Div : F64 → F64 → F64
  | .fin s a, .fin t b =>
    if b = 0 then (if a = 0 then .nan else .inf (s != t)) else roundF64 (s != t) (a * unitsPerOne) b
  | .fin s _, .inf t => .fin (s != t) 0
  | .inf s, .fin t _ => .inf (s != t)
  | .inf _, .inf _ => .nan
  | .nan, _ => .nan
  | _, .nan => .nan

/-- `to_f64(n)`, exact for a number of at most 53 bits (00_scope.md R10). -/
def f64OfNat (n : Nat) : F64 := .fin false (n * unitsPerOne)

/-- `round_half_away(x)`: the nearest integer, a tie away from zero (00_scope.md R10); none for a value that is no
number or no finite one. -/
def roundHalfAway : F64 → Option Int
  | .fin neg n =>
    let k : Int := (((2 * n + unitsPerOne) / (2 * unitsPerOne) : Nat) : Int)
    some (if neg then -k else k)
  | .inf _ => none
  | .nan => none

/-- `to_i64(round_half_away(x))` (00_scope.md R10); outside `[-2^63, 2^63)` a free value (log 12). -/
def toI64 (x : F64) : BitVec 64 :=
  match roundHalfAway x with
  | some k => if -2 ^ 63 ≤ k ∧ k < 2 ^ 63 then BitVec.ofInt 64 k else Config.toI64Unstated x
  | none => Config.toI64Unstated x

/-- `sr is finite and 0 <= sr <= SR_MAX` (70_reset_and_hazards.md R250, D9). Minus zero is legal, since `0 <= -0.0`
holds of binary64 values (log 11). -/
def legalRate (rate : BitVec 64) : Bool :=
  match f64OfBits rate, f64OfBits srMaxBits with
  | .fin neg n, .fin _ m => (!neg || n == 0) && decide (n ≤ m)
  | _, _ => false

/-- The binary64 before rounding in `gap_items`: `((diff * 10.24) * sample_rate) / 1e6`, left to right
(42_padding.md R157). -/
def gapF64 (diff : BitVec 32) (rate : BitVec 64) : F64 :=
  f64Div (f64Mul (f64Mul (f64OfNat diff.toNat) (f64OfBits tickUsBits)) (f64OfBits rate)) (f64OfBits usPerSBits)

/-- `gap_items(diff, sample_rate)` (42_padding.md R157). -/
def gapItems (diff : BitVec 32) (rate : BitVec 64) : BitVec 64 := toI64 (gapF64 diff rate)

/-- `tag_time(t)`, the bits of the binary64 (43_tag.md R195). -/
def tagTime (ticks : BitVec 32) : BitVec 64 :=
  f64ToBits (f64Mul (f64OfNat ticks.toNat) (f64OfBits tickUsBits))

end Sys2Proof.Machine
end

