-- ==== Sys2Proof/Machine/PadUnit.lean ====
section
/-! DEFINITION. PAD, the padding reconstructor (42_padding.md). -/

namespace Sys2Proof.Machine

/-- PAD.CONSTRUCT (70_reset_and_hazards.md R250): a new instance, its handle returned. -/
def execPadConstruct (rate : BitVec 64) (s : State) : Result State :=
  if legalRate rate then
    .next ({ s with pads := s.pads ++ [Pad.fresh rate] }.reply (.padConstructed s.pads.length))
  else .refused .badSampleRate

/-- PAD.CALL (42_padding.md R151): `busy <- 1; i <- 0; o <- 0`. The loop's operations and the call's end are the
instance's next turns (log 5). -/
def execPadCall (h : Nat) (inp : InWindow) (out : OutSpec) (s : State) : Result State :=
  s.onPad h fun p =>
    unlessBusy p.busy (s.ifFits inp out (.next (s.setPad h { p with call := some (PadCall.start inp out) })))

/-- PAD.DRAIN (42_padding.md R154). -/
def execPadDrain (h : Nat) (s : State) : Result State :=
  s.padStep h (.padDrain h) fun p c =>
    c.out.writeThen c.o filler fun w =>
      .next (s.setPad h { p with
        pendingPadding := p.pendingPadding - 1#64
        call := some { c with o := c.o + 1, out := w } })

/-- `if last_timestamp = 0 then diff <- 0 else diff <- wrap_32(t - last_timestamp)` (42_padding.md R153, R156). -/
def Pad.diff (p : Pad) (ticks : BitVec 32) : BitVec 32 :=
  if p.lastTimestamp = 0#32 then 0#32 else ticks - p.lastTimestamp

/-- `expected - zext_64(items_since_tag)` (42_padding.md R156). -/
def Pad.gap (p : Pad) (ticks : BitVec 32) : BitVec 64 :=
  gapItems (p.diff ticks) p.sampleRate - p.itemsSinceTag.setWidth 64

/-- PAD.MARKER (42_padding.md R156). -/
def execPadMarker (h : Nat) (ticks : BitVec 32) (s : State) : Result State :=
  s.padStep h (.padMarker h ticks) fun p c =>
    .next (s.setPad h { p with
      pendingPadding := p.gap ticks
      itemsSinceTag := 0#32
      lastTimestamp := ticks
      call := some { c with i := c.i + 1 } })

/-- PAD.DATA (42_padding.md R155). -/
def execPadData (h : Nat) (x : Item) (s : State) : Result State :=
  s.padStep h (.padData h x) fun p c =>
    c.out.writeThen c.o x fun w =>
      .next (s.setPad h { p with
        itemsSinceTag := p.itemsSinceTag + 1#32
        call := some { c with i := c.i + 1, o := c.o + 1, out := w } })

/-- PAD.STATUS (42_padding.md R163): `pending_padding` raw and signed. -/
def execPadStatus (h : Nat) (s : State) : Result State :=
  s.onPad h fun p =>
    unlessBusy p.busy
      (.next (s.reply (.padStatus h p.lastTimestamp p.itemsSinceTag p.pendingPadding p.sampleRate)))

/-- The end of a PAD call: `busy <- 0; return (consumed = i, produced = o)` (42_padding.md R151, R159). Everything
the call did becomes visible to the host here (20_memory.md R70). -/
def State.finishPad (s : State) (h : Nat) (p : Pad) (c : PadCall) : State :=
  (s.setPad h { p with call := none }).reply (.padReturned h c.i c.o c.out)

end Sys2Proof.Machine
end

