-- ==== Sys2Proof/Machine/TagUnit.lean ====
section
/-! DEFINITION. TAG, the tag extractor (43_tag.md). -/

namespace Sys2Proof.Machine

/-- TAG.CONSTRUCT (70_reset_and_hazards.md R250): a new instance, its handle returned. -/
def execTagConstruct (s : State) : Result State :=
  .next ({ s with tags := s.tags ++ [Tag.fresh] }.reply (.tagConstructed s.tags.length))

/-- TAG.CALL (43_tag.md R193): `busy <- 1; N <- min(IN_LEN, OUT_CAP); i <- 0; r <- 0; anns <- []`. The loop's
operations and the call's end are the instance's next turns (log 5). -/
def execTagCall (h : Nat) (inp : InWindow) (out : OutSpec) (s : State) : Result State :=
  s.onTag h fun t =>
    unlessBusy t.busy (s.ifFits inp out (.next (s.setTag h { t with call := some (TagCall.start inp out) })))

/-- `offset = wrap_64(items_written_total + i - r)` (43_tag.md R192). -/
def Tag.offset (t : Tag) (c : TagCall) : BitVec 64 :=
  t.itemsWrittenTotal + BitVec.ofNat 64 c.i - BitVec.ofNat 64 c.r

/-- TAG.MARKER (43_tag.md R192). -/
def execTagMarker (h : Nat) (ticks : BitVec 32) (s : State) : Result State :=
  s.tagStep h (.tagMarker h ticks) fun t c =>
    .next (s.setTag h { t with
      call := some { c with
        anns := c.anns ++ [{ offset := t.offset c, timeValue := tagTime ticks }]
        r := c.r + 1
        i := c.i + 1 } })

/-- TAG.DATA (43_tag.md R191): `Out[i - r] <- In[i]`. -/
def execTagData (h : Nat) (x : Item) (s : State) : Result State :=
  s.tagStep h (.tagData h x) fun t c =>
    c.out.writeThen (c.i - c.r) x fun w =>
      .next (s.setTag h { t with call := some { c with i := c.i + 1, out := w } })

/-- TAG.STATUS (43_tag.md R197). -/
def execTagStatus (h : Nat) (s : State) : Result State :=
  s.onTag h fun t => unlessBusy t.busy (.next (s.reply (.tagStatus h t.itemsWrittenTotal)))

/-- The end of a TAG call: `items_written_total += N - r; busy <- 0; return (consumed = N, produced = N - r, anns)`
(43_tag.md R193, R194). Everything the call did becomes visible to the host here (20_memory.md R70). -/
def State.finishTag (s : State) (h : Nat) (t : Tag) (c : TagCall) : State :=
  (s.setTag h { t with
    itemsWrittenTotal := t.itemsWrittenTotal + BitVec.ofNat 64 (c.n - c.r)
    call := none }).reply (.tagReturned h c.n (c.n - c.r) c.out c.anns)

end Sys2Proof.Machine
end

