-- ==== Sys2Proof/Machine/Dispatch.lean ====
section
/-! DEFINITION. One arm per operation. -/

namespace Sys2Proof.Machine

open Host

def exec (i : Instr) (s : State) : Host.Outcome State Fault Refusal :=
  match i with
  | .decFft timeLo index timeHi imag real => Sys2Proof.Machine.execDecFft timeLo index timeHi imag real s
  | .decAvg timeLo ignored timeHi magLo magHi => Sys2Proof.Machine.execDecAvg timeLo ignored timeHi magLo magHi s
  | .detMarker ticks => Sys2Proof.Machine.execDetMarker ticks s
  | .detData x => Sys2Proof.Machine.execDetData x s
  | .padConstruct rate => Sys2Proof.Machine.execPadConstruct rate s
  | .padCall h inp out => Sys2Proof.Machine.execPadCall h inp out s
  | .padDrain h => Sys2Proof.Machine.execPadDrain h s
  | .padMarker h ticks => Sys2Proof.Machine.execPadMarker h ticks s
  | .padData h x => Sys2Proof.Machine.execPadData h x s
  | .padStatus h => Sys2Proof.Machine.execPadStatus h s
  | .tagConstruct => Sys2Proof.Machine.execTagConstruct s
  | .tagCall h inp out => Sys2Proof.Machine.execTagCall h inp out s
  | .tagMarker h ticks => Sys2Proof.Machine.execTagMarker h ticks s
  | .tagData h x => Sys2Proof.Machine.execTagData h x s
  | .tagStatus h => Sys2Proof.Machine.execTagStatus h s

end Sys2Proof.Machine
end

