-- ==== Sys2Proof/Machine/Turns.lean ====
section
/-! DEFINITION. Whose move it is, and what a move does (00_scope.md R3, 20_memory.md R69 to R72). -/

namespace Sys2Proof.Machine

/-- A PAD instance that is in a call and has not been refused. -/
def Pad.running (p : Pad) : Bool := p.call.isSome && p.refused.isNone

/-- A TAG instance that is in a call and has not been refused. -/
def Tag.running (t : Tag) : Bool := t.call.isSome && t.refused.isNone

/-- The first instance that is in a call: what moves when the schedule says nothing (log 3). -/
def State.firstRunning (s : State) : Option AgentId :=
  match s.pads.findIdx? Pad.running with
  | some h => some (.pad h)
  | none => (s.tags.findIdx? Tag.running).map .tag

/-- The next move: the schedule's, else the first running instance's, else none. -/
def State.nextTurn (s : State) : Option Turn :=
  match s.schedule with
  | t :: _ => some t
  | [] => s.firstRunning.map .agent

/-- The schedule moves on. -/
def State.dropTurn (s : State) : State := { s with schedule := s.schedule.tail }

/-- One step of PAD instance `h` (42_padding.md R151). Between calls it holds its state (60_exceptions.md R232); a
refused instance takes no step (R224). -/
def padTurn (h : Nat) (s : State) : Result State :=
  match s.pads[h]? with
  | none => .next s
  | some p =>
    match p.refused with
    | some r => .refused r
    | none =>
      match p.call with
      | none => .next s
      | some c =>
        match padSelect h p c with
        | .op q => exec (decode q) s
        | .finish => .next (s.finishPad h p c)
        | .noSlot => .fault .noSuchSlot

/-- One step of TAG instance `h` (43_tag.md R193). Between calls it holds its state (60_exceptions.md R232); a
refused instance takes no step (R224). -/
def tagTurn (h : Nat) (s : State) : Result State :=
  match s.tags[h]? with
  | none => .next s
  | some t =>
    match t.refused with
    | some r => .refused r
    | none =>
      match t.call with
      | none => .next s
      | some c =>
        match tagSelect h c with
        | .op q => exec (decode q) s
        | .finish => .next (s.finishTag h t c)
        | .noSlot => .fault .noSuchSlot

def agentTurn : AgentId → State → Result State
  | .pad h, s => padTurn h s
  | .tag h, s => tagTurn h s

/-- The host changes item `k` of PAD instance `h`'s input window during a call; the block processes the values it is
given (60_exceptions.md R225). A window of no running call is the host's own affair (log 17). -/
def writePadIn (h k : Nat) (x : Item) (s : State) : Result State :=
  match s.pads[h]? with
  | none => .next s
  | some p =>
    match p.refused, p.call with
    | none, some c =>
      if k < c.inp.items.length then
        .next (s.setPad h { p with call := some { c with inp := replaceItem c.inp k x } })
      else .fault .noSuchSlot
    | _, _ => .next s

/-- The same for TAG instance `h`. -/
def writeTagIn (h k : Nat) (x : Item) (s : State) : Result State :=
  match s.tags[h]? with
  | none => .next s
  | some t =>
    match t.refused, t.call with
    | none, some c =>
      if k < c.inp.items.length then
        .next (s.setTag h { t with call := some { c with inp := replaceItem c.inp k x } })
      else .fault .noSuchSlot
    | _, _ => .next s

/-- What a move does. A request of the host is decoded and run (30_encoding.md R97). -/
def takeTurn : Turn → State → Result State
  | .host r, s => exec (decode (.host r)) s
  | .agent a, s => agentTurn a s
  | .hostWriteIn (.pad h) k x, s => writePadIn h k x s
  | .hostWriteIn (.tag h) k x, s => writeTagIn h k x s

/-! ## A refused instance stays refused (60_exceptions.md R224) -/

/-- The instance a move is about, if it is about one. -/
def Turn.agent? : Turn → Option AgentId
  | .host (.padCall h _ _) => some (.pad h)
  | .host (.padStatus h) => some (.pad h)
  | .host (.tagCall h _ _) => some (.tag h)
  | .host (.tagStatus h) => some (.tag h)
  | .host (.dec _ _) => none
  | .host (.det _) => none
  | .host (.padConstruct _) => none
  | .host .tagConstruct => none
  | .agent a => some a
  | .hostWriteIn a _ _ => some a

/-- Mark instance `a` refused for good, with its first reason; where there is no such instance, nothing is marked
(log 7). -/
def State.markRefused (s : State) (a : AgentId) (r : Refusal) : State :=
  match a with
  | .pad h =>
    match s.pads[h]? with
    | some p => s.setPad h { p with refused := some (p.refused.getD r) }
    | none => s
  | .tag h =>
    match s.tags[h]? with
    | some t => s.setTag h { t with refused := some (t.refused.getD r) }
    | none => s

/-- The state in which the others go on after move `t` was refused: the instance it was about is marked. -/
def State.afterRefusal (s : State) (t : Turn) (r : Refusal) : State :=
  match t.agent? with
  | some a => s.markRefused a r
  | none => s

end Sys2Proof.Machine
end

