-- ==== Sys2Proof/Machine/Step.lean ====
section
/-! DEFINITION. The step. -/

namespace Sys2Proof.Machine

/-- One step: the next move is taken. With no request to come and no call in progress the block takes no step by
itself and holds its state (60_exceptions.md R232, 93_implementation_defined.md I14; log 4). -/
def step (s : State) : Host.Outcome State Fault Refusal :=
  match s.nextTurn with
  | some t => takeTurn t s.dropTurn
  | none => .next s

/-- The next move is the host's request of the operation whose table bits are `w` (log 1, log 2). -/
def State.withFetchWord (s : State) (nbits w : Nat) : State :=
  match tableRequest nbits w with
  | some r => { s with schedule := .host r :: s.schedule }
  | none => s

/-- The step of a host that goes on after a refusal: the refused action has no effect, the instance it was about stays
refused, and the other instances take their steps (60_exceptions.md R224, R231; log 7). -/
def stepOn (s : State) : Host.Outcome State Fault Refusal :=
  match step s, s.nextTurn with
  | .refused r, some t => .next (s.dropTurn.afterRefusal t r)
  | o, _ => o

end Sys2Proof.Machine
end

