-- ==== Sys2Proof/Machine/HostBytes.lean ====
section
/-! DEFINITION. A window as a host's byte memory holds it (20_memory.md R62, R63). The block itself reads no byte. -/

namespace Sys2Proof.Machine

/-- Item `k` of a window at byte address `base` lies at `base + 8*k` (20_memory.md R63). -/
def itemAddress (base k : Nat) : Nat := base + 8 * k

/-- The eight bytes of an item, lowest address first, under `HOST_BYTE_ORDER` (20_memory.md R62, log 18). -/
def itemBytes (order : ByteOrder) (x : Item) : List (BitVec 8) :=
  match order with
  | .little => (List.range 8).map fun j => x.extractLsb' (8 * j) 8
  | .big => (List.range 8).map fun j => x.extractLsb' (8 * (7 - j)) 8

/-- The item whose eight bytes lie lowest address first (20_memory.md R62). -/
def itemOfBytes (order : ByteOrder) (bs : List (BitVec 8)) : Item :=
  match order with
  | .little => bs.foldr (fun b x => (x <<< 8) ||| b.setWidth 64) 0#64
  | .big => bs.foldl (fun x b => (x <<< 8) ||| b.setWidth 64) 0#64

/-- The byte cells of one item at an address. -/
def itemCells (order : ByteOrder) (a : Nat) (x : Item) : List Host.Cell :=
  (itemBytes order x).zipIdx.map fun bj => (a + bj.2, bj.1)

/-- The bytes a returned output window puts into the host's memory, where the host maps it to bytes: the written
slots only (20_memory.md R63, R66). -/
def OutWindow.hostCells (order : ByteOrder) (w : OutWindow) : List Host.Cell :=
  match w.base with
  | none => []
  | some base => w.slots.flatMap fun kx => itemCells order (itemAddress base kx.1) kx.2

end Sys2Proof.Machine
end

