-- ==== Sys2Proof/Safety.lean ====
section
/-! DEFINITION. The terms claims are stated in: runs of the machine, what a whole call gives as a function of the
stream, and the invariants. -/

namespace Sys2Proof.Machine

/-! ## Runs -/

/-- `k` steps, stopping at the first fault or refusal. -/
def runSteps : Nat → State → Result State
  | 0, s => .next s
  | k + 1, s =>
    match step s with
    | .next s' => runSteps k s'
    | .fault f => .fault f
    | .refused r => .refused r

/-- The machine under exactly these turns. -/
def runTurns (ts : List Turn) (s : State) : Result State := runSteps ts.length { s with schedule := ts }

/-- The host calls PAD instance `h`, which then takes as many turns as a call can need: one for each item read or
slot written, and one to return (42_padding.md R168). -/
def padCallRun (s : State) (h : Nat) (inp : InWindow) (out : OutSpec) : Result State :=
  runTurns (.host (.padCall h inp out) :: List.replicate (inp.items.length + out.cap + 1) (.agent (.pad h))) s

/-- The host calls TAG instance `h`, which then takes `N` turns and one to return (43_tag.md R201). -/
def tagCallRun (s : State) (h : Nat) (inp : InWindow) (out : OutSpec) : Result State :=
  runTurns (.host (.tagCall h inp out) :: List.replicate (min inp.items.length out.cap + 1) (.agent (.tag h))) s

/-- The written slots `0, 1, …` of a window that holds these items. -/
def slotsOf (xs : List Item) : Memory := xs.zipIdx.map fun xk => (xk.2, xk.1)

/-- The host may call this window pair: not above `MAX_CALL`, and not mapped to unaligned bytes. -/
def fits (s : State) (inp : InWindow) (out : OutSpec) : Bool :=
  !tooLarge s.maxCall inp out && alignedBase inp.base && alignedBase out.base

/-- PAD instance `h` is `p`, between calls and not refused. -/
def idlePad (s : State) (h : Nat) (p : Pad) : Prop := s.pads[h]? = some p ∧ p.call = none ∧ p.refused = none

/-- TAG instance `h` is `t`, between calls and not refused. -/
def idleTag (s : State) (h : Nat) (t : Tag) : Prop := s.tags[h]? = some t ∧ t.call = none ∧ t.refused = none

/-- PAD instance `h` is `p`, not refused, and in the call `c`. -/
def padInCall (s : State) (h : Nat) (p : Pad) (c : PadCall) : Prop :=
  s.pads[h]? = some p ∧ p.call = some c ∧ p.refused = none

/-- TAG instance `h` is `t`, not refused, and in the call `c`. -/
def tagInCall (s : State) (h : Nat) (t : Tag) (c : TagCall) : Prop :=
  s.tags[h]? = some t ∧ t.call = some c ∧ t.refused = none

/-! ## A whole PAD call as a function of the stream (42_padding.md R151, R152) -/

/-- How many fillers PAD writes before anything else, in `room` slots: all it owes, or as many as fit. -/
def Pad.drained (p : Pad) (room : Nat) : Nat := min p.pendingPadding.toInt.toNat room

/-- The registers after `d` fillers. -/
def Pad.pay (p : Pad) (d : Nat) : Pad := { p with pendingPadding := p.pendingPadding - BitVec.ofNat 64 d }

/-- The registers after a marker (42_padding.md R156). -/
def Pad.absorb (p : Pad) (ticks : BitVec 32) : Pad :=
  { p with pendingPadding := p.gap ticks, itemsSinceTag := 0#32, lastTimestamp := ticks }

/-- The registers after a data item (42_padding.md R155). -/
def Pad.count (p : Pad) : Pad := { p with itemsSinceTag := p.itemsSinceTag + 1#32 }

/-- What a PAD call leaves: the registers, how many items it consumed, and the items it wrote. -/
structure PadOutcome where
  pad      : Pad
  consumed : Nat
  outs     : List Item
deriving DecidableEq, Repr

/-- One call over a list of items with room for `cap` output items: the owed drain, then the next item if there is
room left, and so on (42_padding.md R152). -/
def padProcess (p : Pad) : List Item → Nat → PadOutcome
  | [], cap =>
    { pad := p.pay (p.drained cap), consumed := 0, outs := List.replicate (p.drained cap) filler }
  | x :: xs, cap =>
    let d := p.drained cap
    if cap ≤ d then { pad := p.pay d, consumed := 0, outs := List.replicate d filler }
    else if isMarker x then
      let r := padProcess ((p.pay d).absorb (ticksOf x)) xs (cap - d)
      { pad := r.pad, consumed := r.consumed + 1, outs := List.replicate d filler ++ r.outs }
    else
      let r := padProcess (p.pay d).count xs (cap - d - 1)
      { pad := r.pad, consumed := r.consumed + 1, outs := List.replicate d filler ++ x :: r.outs }

/-- The state after a whole PAD call whose outcome is `r`: the call's results, and nothing else changed. -/
def State.padReturn (s : State) (h : Nat) (out : OutSpec) (r : PadOutcome) : State :=
  { s with
    schedule := []
    pads := s.pads.set h r.pad
    replies :=
      .padReturned h r.consumed r.outs.length { cap := out.cap, base := out.base, slots := slotsOf r.outs } :: s.replies }

/-! ## A whole TAG call as a function of the stream (43_tag.md R193) -/

/-- The data items of a stretch of the stream (43_tag.md R199). -/
def dataItems (xs : List Item) : List Item := xs.filter fun x => !isMarker x

/-- The annotations of a stretch of the stream whose first data item takes the output offset `total` (43_tag.md
R196): each marker attaches its time to the next data item. -/
def tagAnns (total : BitVec 64) : List Item → List Ann
  | [] => []
  | x :: xs =>
    if isMarker x then { offset := total, timeValue := tagTime (ticksOf x) } :: tagAnns total xs
    else tagAnns (total + 1#64) xs

/-- The state after a whole TAG call that consumes `xs`: the call's results, and nothing else changed. -/
def State.tagReturn (s : State) (h : Nat) (t : Tag) (out : OutSpec) (xs : List Item) : State :=
  { s with
    schedule := []
    tags := s.tags.set h { t with
      itemsWrittenTotal := t.itemsWrittenTotal + BitVec.ofNat 64 (dataItems xs).length }
    replies :=
      .tagReturned h xs.length (dataItems xs).length
        { cap := out.cap, base := out.base, slots := slotsOf (dataItems xs) }
        (tagAnns t.itemsWrittenTotal xs) :: s.replies }

/-! ## The host program PAD.FLUSH (30_encoding.md R106) -/

/-- The produced count of the newest reply, if that is a PAD call's. -/
def State.lastProduced (s : State) : Option Nat :=
  match s.replies.head? with
  | some (.padReturned _ _ produced _) => some produced
  | _ => none

/-- `PAD.FLUSH p cap=n`: call with an empty input until a call produces nothing; `none` if `fuel` calls were not
enough or one did not return (log 27). -/
def padFlush : Nat → Nat → Nat → State → Option State
  | 0, _, _, _ => none
  | fuel + 1, h, cap, s =>
    match padCallRun s h { items := [], base := none } { cap := cap, base := none } with
    | .next s' => if s'.lastProduced = some 0 then some s' else padFlush fuel h cap s'
    | .fault _ => none
    | .refused _ => none

/-! ## Rounding (00_scope.md R10) -/

/-- `n` is the magnitude of a binary64 whose exponent is not bounded above: a significand of at most 53 bits at an
exponent of at least 0, in units of `2^-1074`. -/
def representable (n : Nat) : Prop := ∃ k e, k < 2 ^ 53 ∧ n = k * 2 ^ e

/-- How far `num / den` lies from `n`, times `den`. -/
def distance (num den n : Nat) : Nat := (num - n * den) + (n * den - num)

/-- `r` is the representable number nearest to `num / den`; where another one is as near, the significand of `r`, at
the exponent its size gives it, is even. -/
def NearestEven (num den r : Nat) : Prop :=
  representable r ∧ (∀ n, representable n → distance num den r ≤ distance num den n) ∧
    ∀ n, representable n → n ≠ r → distance num den n = distance num den r →
      ∃ k e, k < 2 ^ 53 ∧ (e = 0 ∨ 2 ^ 52 ≤ k) ∧ k % 2 = 0 ∧ r = k * 2 ^ e

/-! ## Invariants -/

/-- An output window that holds exactly the slots `0 .. produced-1`, within its capacity, and no marker
(20_memory.md R65, R66; 42_padding.md R160; 43_tag.md R199). -/
def windowOk (w : OutWindow) (produced : Nat) : Prop :=
  produced ≤ w.cap ∧ w.slots.map Prod.fst = List.range produced ∧ ∀ kx ∈ w.slots, isMarker kx.2 = false

/-- A PAD call's cursors are in range (10_state.md R40) and its window holds what they say. -/
def PadCall.ok (c : PadCall) : Prop := c.i ≤ c.inp.items.length ∧ windowOk c.out c.o

/-- A TAG call's counters are in range (10_state.md R41), `N` is the batch (43_tag.md R190), there is one annotation
for each marker, and the window holds the rest. -/
def TagCall.ok (c : TagCall) : Prop :=
  c.r ≤ c.i ∧ c.i ≤ c.n ∧ c.n = min c.inp.items.length c.out.cap ∧ c.anns.length = c.r ∧ windowOk c.out (c.i - c.r)

/-- A PAD instance's `sample_rate` is legal (D9), and its call is in order. -/
def Pad.ok (p : Pad) : Prop := legalRate p.sampleRate = true ∧ ∀ c, p.call = some c → c.ok

def Tag.ok (t : Tag) : Prop := ∀ c, t.call = some c → c.ok

/-- What a call's return promises: a window in order, and for TAG every consumed item either written or turned into
an annotation (43_tag.md R198). -/
def Reply.ok : Reply → Prop
  | .padReturned _ _ produced out => windowOk out produced
  | .tagReturned _ consumed produced out anns => windowOk out produced ∧ produced + anns.length = consumed
  | .decoded _ => True
  | .detected _ _ => True
  | .padConstructed _ => True
  | .padStatus _ _ _ _ _ => True
  | .tagConstructed _ => True
  | .tagStatus _ _ => True

/-- The machine's invariant. -/
def State.Inv (s : State) : Prop :=
  (∀ p ∈ s.pads, p.ok) ∧ (∀ t ∈ s.tags, t.ok) ∧ ∀ r ∈ s.replies, r.ok

/-- The output window of a call in progress is in the canonical form. -/
def Pad.windowWf (p : Pad) : Prop := ∀ c, p.call = some c → Memory.wf c.out.slots = true

/-- The output window of a call in progress is in the canonical form. -/
def Tag.windowWf (t : Tag) : Prop := ∀ c, t.call = some c → Memory.wf c.out.slots = true

/-- Every in-flight output window is in the canonical form. -/
def State.memWf (s : State) : Prop := (∀ p ∈ s.pads, p.windowWf) ∧ ∀ t ∈ s.tags, t.windowWf

/-- The largest gap of a legal rate: the last row of the spec's gap table, at `diff = 0xFFFFFFFF` and `SR_MAX`
(42_padding.md R158). -/
def maxGap : Int := 8796093020160001024

/-- `pending_padding` stays in the range of 42_padding.md R158, under a legal rate. -/
def Pad.inRange (p : Pad) : Prop :=
  legalRate p.sampleRate = true ∧
    -(2 ^ 32 - 1) ≤ p.pendingPadding.toInt ∧ p.pendingPadding.toInt ≤ maxGap

end Sys2Proof.Machine
end

