-- ==== Sys2Proof/Certificates/Slice0/Obligations.lean ====
section
/-! DEFINITION. The statements for the provers. -/

open Sys2Proof Sys2Proof.Machine

/-! ## Decoding -/

/-- 30_encoding.md R97 to R99: every well-formed operation is what its own encoding decodes to, with every operand at
every value. -/
def Obligations.DecodeOfEncodeIsTheOperation : Prop := ∀ i : Instr, i.wf = true → decode (encode i) = i

/-- 30_encoding.md R99, R101: whatever stands at a unit decodes to a well-formed operation of that unit, whose encoding
is what stood there: no encoding is illegal and no bit is dropped. -/
def Obligations.EncodeOfDecodeIsTheOperand : Prop :=
  ∀ q : Presented, (decode q).wf = true ∧ (decode q).unit = q.unit ∧ encode (decode q) = q

/-- Words written out from 30_encoding.md R91 to R95 decode to the operations they stand for. -/
def Obligations.SampleEncodingsDecode : Prop :=
  decode (.host (.dec 0xABCD7FF5#32 0x8000FFFF#32)) = .decFft 0xABCD#16 0x7FF#11 0x5#4 0x8000#16 0xFFFF#16 ∧
  decode (.host (.dec 0x12348007#32 0x7FFF8000#32)) = .decAvg 0x1234#16 0#11 0x7#4 0x7FFF#16 0x8000#16 ∧
  decode (.host (.det 0x000003E8FFFFFFFF#64)) = .detMarker 1000#32 ∧
  decode (.host (.det 0xFFFFFFFF7FFFFFFF#64)) = .detData 0xFFFFFFFF7FFFFFFF#64 ∧
  decode (.padItem 2 0x00000064FFFFFFFF#64) = .padMarker 2 100#32 ∧
  decode (.padItem 2 0x0000000000000011#64) = .padData 2 0x11#64 ∧
  decode (.tagItem 1 0xFFFFFFFFFFFFFFFF#64) = .tagMarker 1 0xFFFFFFFF#32 ∧
  decode (.tagItem 1 0x0000000000000000#64) = .tagData 1 0#64

/-- 41_marker.md R140, in the source's form. -/
def Obligations.MarkerPredicateIsTheMaskTest : Prop :=
  ∀ x : Item, isMarker x = true ↔ x &&& 0xFFFFFFFF#64 = 0xFFFFFFFF#64

/-- 40_codec.md R124: a stream of words is decoded as the pairs `(w[2k], w[2k+1])`; a last word alone is never
decoded, which the model says by the name `loneWord` (log 26). -/
def Obligations.WordStreamIsDecodedAsPairs : Prop :=
  ∀ (ws : List Word) (n : Nat),
    (ws.length = 2 * n → ∃ is, decodeStream ws = .ok is ∧ is.length = n ∧
      ∀ k a b, ws[2 * k]? = some a → ws[2 * k + 1]? = some b → is[k]? = some (decode (.host (.dec a b)))) ∧
    (ws.length = 2 * n + 1 → decodeStream ws = .error .loneWord)

/-! ## CODEC -/

/-- 40_codec.md R122, with the fields of 30_encoding.md R91, R92 and nothing else changed. -/
def Obligations.DecFftGivesTheFftBinRecord : Prop :=
  ∀ (word0 word1 : Word) (s : State), word0.getLsbD 15 = false →
    ∃ port : CodecPort,
      decode (.host (.dec word0 word1)) = .decFft (word0.extractLsb' 16 16) (word0.extractLsb' 4 11)
        (word0.extractLsb' 0 4) (word1.extractLsb' 16 16) (word1.extractLsb' 0 16) ∧
      exec (.decFft (word0.extractLsb' 16 16) (word0.extractLsb' 4 11) (word0.extractLsb' 0 4)
        (word1.extractLsb' 16 16) (word1.extractLsb' 0 16)) s =
          .next { s with replies := .decoded port :: s.replies } ∧
      port.average = false ∧
      port.record = .fftBin
        ((word0.extractLsb' 0 4 ++ word0.extractLsb' 16 16 : BitVec 20).setWidth 32)
        ((word0.extractLsb' 4 11).setWidth 16)
        (word1.extractLsb' 0 16).toInt
        (word1.extractLsb' 16 16).toInt

/-- 40_codec.md R123, with the fields of 30_encoding.md R91, R93 and nothing else changed. -/
def Obligations.DecAvgGivesTheAverageRecord : Prop :=
  ∀ (word0 word1 : Word) (s : State), word0.getLsbD 15 = true →
    ∃ port : CodecPort,
      decode (.host (.dec word0 word1)) = .decAvg (word0.extractLsb' 16 16) (word0.extractLsb' 4 11)
        (word0.extractLsb' 0 4) (word1.extractLsb' 16 16) (word1.extractLsb' 0 16) ∧
      exec (.decAvg (word0.extractLsb' 16 16) (word0.extractLsb' 4 11) (word0.extractLsb' 0 4)
        (word1.extractLsb' 16 16) (word1.extractLsb' 0 16)) s =
          .next { s with replies := .decoded port :: s.replies } ∧
      port.average = true ∧
      port.record = .average
        ((word0.extractLsb' 0 4 ++ word0.extractLsb' 16 16 : BitVec 20).setWidth 32)
        (word1.extractLsb' 0 16 ++ word1.extractLsb' 16 16 : BitVec 32)

/-- 40_codec.md R126: whatever the kind, every port is driven by the formula of 30_encoding.md R96, here in the
source's C form. That all are driven is the spec's decision D25 (log 15). -/
def Obligations.CodecDrivesEveryPortForEveryPair : Prop :=
  ∀ (word0 word1 : Word) (s : State), ∃ port : CodecPort,
    exec (decode (.host (.dec word0 word1))) s = .next { s with replies := .decoded port :: s.replies } ∧
    port.average = word0.getLsbD 15 ∧
    port.time.setWidth 32 = ((word0 &&& 0xF#32) <<< 16) ||| (word0 >>> 16) ∧
    port.fftIndex.setWidth 32 = (word0 >>> 4) &&& 0x7FF#32 ∧
    port.real = word1.setWidth 16 ∧
    port.imag = (word1 >>> 16).setWidth 16 ∧
    port.magnitude = (word1 >>> 16) ||| ((word1 &&& 0xFFFF#32) <<< 16)

/-- 30_encoding.md R100: two average samples that differ only in `word0[14:4]` give the same record. -/
def Obligations.AverageRecordIgnoresTheIndexBits : Prop :=
  ∀ (word0 word0' word1 : Word) (s s' : State) (port port' : CodecPort),
    word0.getLsbD 15 = true → word0 &&& 0xFFFF800F#32 = word0' &&& 0xFFFF800F#32 →
    exec (decode (.host (.dec word0 word1))) s = .next (s.reply (.decoded port)) →
    exec (decode (.host (.dec word0' word1))) s' = .next (s'.reply (.decoded port')) →
    port.record = port'.record

/-! ## DET -/

/-- 41_marker.md R141: every item whose low 32 bits are all ones. -/
def Obligations.DetMarkerReportsTheTimestamp : Prop :=
  ∀ (x : Item) (s : State), x &&& 0xFFFFFFFF#64 = 0xFFFFFFFF#64 →
    decode (.host (.det x)) = .detMarker (x.extractLsb' 32 32) ∧
    exec (.detMarker (x.extractLsb' 32 32)) s =
      .next { s with replies := .detected true (x.extractLsb' 32 32) :: s.replies }

/-- 41_marker.md R142: every other item. What the timestamp port shows for it is the spec's decision D25 (R143,
log 15). -/
def Obligations.DetDataReportsNoMarker : Prop :=
  ∀ (x : Item) (s : State), x &&& 0xFFFFFFFF#64 ≠ 0xFFFFFFFF#64 →
    decode (.host (.det x)) = .detData x ∧
    exec (.detData x) s = .next { s with replies := .detected false (x.extractLsb' 32 32) :: s.replies }

/-! ## Construction, reset and status -/

/-- 70_reset_and_hazards.md R250: what PAD.CONSTRUCT and TAG.CONSTRUCT create, and the refusal of an illegal rate. A
rate is legal if it is finite, not below 0 and at most 2.0e14; that minus zero is legal is the model's inference
(log 11), and a handle is the instance's place in the list (log 10). -/
def Obligations.ConstructCreatesAFreshInstance : Prop :=
  ∀ (rate : BitVec 64) (s : State),
    ((∃ neg n, f64OfBits rate = .fin neg n ∧ (neg = true → n = 0) ∧ n ≤ 200000000000000 * 2 ^ 1074) →
      exec (.padConstruct rate) s = .next { s with
        pads := s.pads ++ [{ lastTimestamp := 0#32, itemsSinceTag := 0#32, pendingPadding := 0#64,
                             sampleRate := rate, call := none, refused := none }]
        replies := .padConstructed s.pads.length :: s.replies }) ∧
    ((¬ ∃ neg n, f64OfBits rate = .fin neg n ∧ (neg = true → n = 0) ∧ n ≤ 200000000000000 * 2 ^ 1074) →
      exec (.padConstruct rate) s = .refused .badSampleRate) ∧
    exec .tagConstruct s = .next { s with
      tags := s.tags ++ [{ itemsWrittenTotal := 0#64, call := none, refused := none }]
      replies := .tagConstructed s.tags.length :: s.replies }

/-- 42_padding.md R163: the four registers of an instance between calls, and no state written; refused like a call
while `busy = 1`. That the registers can be read is the spec's decision D18 (log 24). -/
def Obligations.PadStatusReturnsTheRegisters : Prop :=
  ∀ (s : State) (h : Nat) (p : Pad),
    (idlePad s h p → exec (.padStatus h) s = .next { s with
      replies := .padStatus h p.lastTimestamp p.itemsSinceTag p.pendingPadding p.sampleRate :: s.replies }) ∧
    ∀ c, padInCall s h p c → exec (.padStatus h) s = .refused .concurrentCall

/-- 43_tag.md R197: the register of an instance between calls, and no state written; refused while `busy = 1`.
That it can be read is the spec's decision D18 (log 24). -/
def Obligations.TagStatusReturnsTheRegister : Prop :=
  ∀ (s : State) (h : Nat) (t : Tag),
    (idleTag s h t →
      exec (.tagStatus h) s = .next { s with replies := .tagStatus h t.itemsWrittenTotal :: s.replies }) ∧
    ∀ c, tagInCall s h t c → exec (.tagStatus h) s = .refused .concurrentCall

/-- The invariant and the canonical form hold at reset, and no instance exists there (log 20). -/
def Obligations.ResetMeetsTheInvariant : Prop :=
  State.reset.Inv ∧ State.reset.memWf ∧ State.reset.pads = [] ∧ State.reset.tags = []

/-! ## PAD, operation by operation -/

/-- 10_state.md R40, R42: a call on an instance between calls makes it busy, with both cursors at 0 and no slot written;
nothing else changes. That PAD.CALL only starts the call, and the loop of 42_padding.md R151 and the return are later
turns, is the model's reading (log 5). -/
def Obligations.PadCallStartsTheCall : Prop :=
  ∀ (s : State) (h : Nat) (p : Pad) (inp : InWindow) (out : OutSpec), idlePad s h p →
    (∀ m, s.maxCall = some m → inp.items.length ≤ m ∧ out.cap ≤ m) →
    (∀ a, inp.base = some a → a % 8 = 0) → (∀ a, out.base = some a → a % 8 = 0) →
    exec (.padCall h inp out) s = .next { s with
      pads := s.pads.set h { p with
        call := some { i := 0, o := 0, inp := inp, out := { cap := out.cap, base := out.base, slots := [] } } } }

/-- 42_padding.md R154: one filler is written, `pending_padding` falls by 1, nothing else changes. -/
def Obligations.PadDrainWritesOneFiller : Prop :=
  ∀ (s : State) (h : Nat) (p : Pad) (c : PadCall), padInCall s h p c →
    0 < p.pendingPadding.toInt → c.o < c.out.cap →
    ∃ slots : Memory,
      exec (.padDrain h) s = .next { s with
        pads := s.pads.set h { p with
          pendingPadding := p.pendingPadding - 1#64
          call := some { c with o := c.o + 1, out := { c.out with slots := slots } } } } ∧
      Memory.read slots c.o = some 0x0000000000000000#64 ∧
      ∀ k, k ≠ c.o → Memory.read slots k = Memory.read c.out.slots k

/-- 42_padding.md R155: a data item is copied and counted, nothing else changes. That the count wraps is the spec's
decision D24 (log 24). -/
def Obligations.PadDataCopiesTheItem : Prop :=
  ∀ (s : State) (h : Nat) (p : Pad) (c : PadCall) (x : Item), padInCall s h p c →
    p.pendingPadding.toInt ≤ 0 → c.o < c.out.cap → c.inp.items[c.i]? = some x →
    x &&& 0xFFFFFFFF#64 ≠ 0xFFFFFFFF#64 →
    ∃ slots : Memory,
      exec (.padData h x) s = .next { s with
        pads := s.pads.set h { p with
          itemsSinceTag := p.itemsSinceTag + 1#32
          call := some { c with i := c.i + 1, o := c.o + 1, out := { c.out with slots := slots } } } } ∧
      Memory.read slots c.o = some x ∧
      ∀ k, k ≠ c.o → Memory.read slots k = Memory.read c.out.slots k

/-- 42_padding.md R156: the marker is consumed, the gap is computed, no slot is written, nothing else changes.
The test of the seed is the spec's decision D6, the gap's rounding D7 and D8 (log 24). -/
def Obligations.PadMarkerComputesTheGap : Prop :=
  ∀ (s : State) (h : Nat) (p : Pad) (c : PadCall) (t : BitVec 32), padInCall s h p c →
    p.pendingPadding.toInt ≤ 0 → c.o < c.out.cap → c.inp.items[c.i]? = some (t ++ 0xFFFFFFFF#32 : BitVec 64) →
    exec (.padMarker h t) s = .next { s with
      pads := s.pads.set h { p with
        pendingPadding :=
          gapItems (if p.lastTimestamp = 0#32 then 0#32 else t - p.lastTimestamp) p.sampleRate -
            p.itemsSinceTag.setWidth 64
        itemsSinceTag := 0#32
        lastTimestamp := t
        call := some { c with i := c.i + 1 } } }

/-- 42_padding.md R165: a first marker seeds, so `pending_padding = -items_since_tag`, which is not positive. -/
def Obligations.FirstMarkerSeedsWithoutFiller : Prop :=
  ∀ (s : State) (h : Nat) (p : Pad) (c : PadCall) (t : BitVec 32), padInCall s h p c →
    legalRate p.sampleRate = true → p.lastTimestamp = 0#32 →
    p.pendingPadding.toInt ≤ 0 → c.o < c.out.cap → c.inp.items[c.i]? = some (markerItem t) →
    ∃ (s' : State) (p' : Pad), exec (.padMarker h t) s = .next s' ∧ s'.pads[h]? = some p' ∧
      p'.pendingPadding.toInt = -(p.itemsSinceTag.toNat : Int) ∧ p'.lastTimestamp = t

/-- 42_padding.md R159: an instance in a call returns at the stops S1 and S2, with `consumed = i` and `produced = o`,
and at no other point: elsewhere it runs one operation and stays in the call. The counts are the spec's decision D11,
and a turn of its own for the return is the model's reading (log 5, log 24). -/
def Obligations.PadCallReturnsExactlyAtTheStops : Prop :=
  ∀ (s : State) (h : Nat) (p : Pad) (c : PadCall) (rest : List Turn), padInCall s h p c →
    s.schedule = .agent (.pad h) :: rest → c.i ≤ c.inp.items.length → c.o ≤ c.out.cap →
    ((0 < p.pendingPadding.toInt ∧ c.o = c.out.cap ∨
        p.pendingPadding.toInt ≤ 0 ∧ (c.i = c.inp.items.length ∨ c.o = c.out.cap)) →
      step s = .next { s with
        schedule := rest
        pads := s.pads.set h { p with call := none }
        replies := .padReturned h c.i c.o c.out :: s.replies }) ∧
    (¬ (0 < p.pendingPadding.toInt ∧ c.o = c.out.cap ∨
        p.pendingPadding.toInt ≤ 0 ∧ (c.i = c.inp.items.length ∨ c.o = c.out.cap)) →
      ∃ (s' : State) (p' : Pad) (c' : PadCall), step s = .next s' ∧ padInCall s' h p' c' ∧
        c.i + c.o < c'.i + c'.o ∧ c'.i ≤ c'.inp.items.length ∧ c'.o ≤ c'.out.cap ∧ s'.replies = s.replies)

/-! ## Binary64 -/

/-- 00_scope.md R10: a finite product or quotient is the nearest binary64 to the exact one, ties to even; its sign is
the exclusive or of the signs. The sign, and that subnormal magnitudes are kept, are IEEE 754's (log 13). -/
def Obligations.MultiplicationAndDivisionRoundToNearestEven : Prop :=
  ∀ (s t u : Bool) (a b r : Nat),
    (f64Mul (.fin s a) (.fin t b) = .fin u r → u = (s != t) ∧ NearestEven (a * b) unitsPerOne r) ∧
    (0 < b → f64Div (.fin s a) (.fin t b) = .fin u r → u = (s != t) ∧ NearestEven (a * unitsPerOne) b r)

/-- 00_scope.md R10: `round_half_away` gives the nearest integer, a tie the one farther from zero. -/
def Obligations.RoundHalfAwayIsNearest : Prop :=
  ∀ (neg : Bool) (n : Nat), ∃ k : Nat,
    roundHalfAway (.fin neg n) = some (if neg then -(k : Int) else k) ∧
    2 * n < 2 * k * unitsPerOne + unitsPerOne ∧ 2 * k * unitsPerOne ≤ 2 * n + unitsPerOne

/-- The 64 bits of every binary64 that is no NaN come back unchanged (00_scope.md R10, log 13). -/
def Obligations.BinarySixtyFourBitsRoundTrip : Prop :=
  ∀ b : BitVec 64, f64OfBits b ≠ .nan → f64ToBits (f64OfBits b) = b

/-- 42_padding.md R157, R158: with a legal rate the gap is `round_half_away` of
`((to_f64(diff) *f TICK_US) *f sample_rate) /f US_PER_S`, where `TICK_US` is the binary64 nearest to 10.24, each of the
three operations rounds once, and every magnitude is in units of `2^-1074`; `to_i64` is exact, the gap is not negative,
and it is at most the last row of the spec's gap table. The tick is the spec's decision D2 (log 23), the order of the
operations and the two roundings D7 and D8 (log 24), and the encoding of a rate IEEE 754's (log 13). -/
def Obligations.GapOfALegalRateIsInRange : Prop :=
  ∀ (diff : BitVec 32) (rate : BitVec 64), legalRate rate = true →
    ∃ (neg : Bool) (sr tick a b r k : Nat),
      f64OfBits rate = .fin neg sr ∧
      NearestEven (1024 * 2 ^ 1074) 100 tick ∧
      NearestEven (diff.toNat * tick) 1 a ∧
      NearestEven (a * sr) (2 ^ 1074) b ∧
      NearestEven b 1000000 r ∧
      gapF64 diff rate = .fin neg r ∧
      2 * r < 2 * k * 2 ^ 1074 + 2 ^ 1074 ∧ 2 * k * 2 ^ 1074 ≤ 2 * r + 2 ^ 1074 ∧
      roundHalfAway (gapF64 diff rate) = some (k : Int) ∧
      (gapItems diff rate).toInt = k ∧ k ≤ 8796093020160001024

/-! ## PAD, whole calls -/

/-- 42_padding.md R151, R152: a whole call, run step by step, gives what the stream function `padProcess` gives, and
changes nothing else. That the call's operations are steps is the model's reading (log 5). -/
def Obligations.PadCallIsTheStreamFunction : Prop :=
  ∀ (s : State) (h : Nat) (p : Pad) (inp : InWindow) (out : OutSpec), idlePad s h p → fits s inp out = true →
    padCallRun s h inp out = .next (s.padReturn h out (padProcess p inp.items out.cap))

/-- 42_padding.md R168: each step of a call raises `i + o`, so within `IN_LEN + OUT_CAP` steps and one turn to return
the call has returned, whatever state the call is in. The turn of its own for the return is the model's reading
(log 5). -/
def Obligations.PadCallReturnsWithinTheBound : Prop :=
  ∀ (s : State) (h : Nat) (p : Pad) (c : PadCall), padInCall s h p c →
    c.i ≤ c.inp.items.length → c.o ≤ c.out.cap →
    ∃ (k : Nat) (s' : State) (p' : Pad) (consumed produced : Nat) (w : OutWindow),
      k ≤ (c.inp.items.length - c.i) + (c.out.cap - c.o) + 1 ∧
      runTurns (List.replicate k (.agent (.pad h))) s = .next s' ∧
      s'.pads[h]? = some p' ∧ p'.call = none ∧
      s'.replies = .padReturned h consumed produced w :: s.replies ∧
      c.i ≤ consumed ∧ consumed ≤ c.inp.items.length ∧ c.o ≤ produced ∧ produced ≤ c.out.cap

/-- 42_padding.md R162: a stream of data items comes out as it went in. -/
def Obligations.DataOnlyStreamIsCopied : Prop :=
  ∀ (s : State) (h : Nat) (p : Pad) (xs : List Item) (inBase : Option Nat) (out : OutSpec), idlePad s h p →
    fits s { items := xs, base := inBase } out = true →
    p.pendingPadding.toInt ≤ 0 → (∀ x ∈ xs, isMarker x = false) → xs.length ≤ out.cap →
    padCallRun s h { items := xs, base := inBase } out = .next { s with
      schedule := []
      pads := s.pads.set h { p with itemsSinceTag := p.itemsSinceTag + BitVec.ofNat 32 xs.length }
      replies := .padReturned h xs.length xs.length
        { cap := out.cap, base := out.base, slots := slotsOf xs } :: s.replies }

/-- 42_padding.md R161, the source's property: a call of capacity `b1` and then one of capacity `b2` over what the
first left give the same registers, the same consumed items and the same output as one call of capacity
`b1 + b2`. -/
def Obligations.SplitCallsGiveTheSameStream : Prop :=
  ∀ (s : State) (h : Nat) (p : Pad) (xs : List Item) (b1 b2 : Nat), idlePad s h p →
    fits s { items := xs, base := none } { cap := b1 + b2, base := none } = true →
    ∃ (s1 s2 s' : State) (p' : Pad) (c1 c2 n1 n2 : Nat) (outs1 outs2 : List Item),
      padCallRun s h { items := xs, base := none } { cap := b1, base := none } = .next s1 ∧
      s1.replies = .padReturned h c1 n1 { cap := b1, base := none, slots := slotsOf outs1 } :: s.replies ∧
      padCallRun s1 h { items := xs.drop c1, base := none } { cap := b2, base := none } = .next s2 ∧
      s2.replies = .padReturned h c2 n2 { cap := b2, base := none, slots := slotsOf outs2 } :: s1.replies ∧
      padCallRun s h { items := xs, base := none } { cap := b1 + b2, base := none } = .next s' ∧
      s'.replies = .padReturned h (c1 + c2) (n1 + n2)
        { cap := b1 + b2, base := none, slots := slotsOf (outs1 ++ outs2) } :: s.replies ∧
      s2.pads[h]? = some p' ∧ s'.pads[h]? = some p'

/-- 42_padding.md R161: with new items arriving between the calls, what two calls write is a prefix of what one call
over the whole stream writes, and no item is lost. -/
def Obligations.CallsWriteAPrefixOfOneStream : Prop :=
  ∀ (s : State) (h : Nat) (p : Pad) (xs ys : List Item) (b1 b2 : Nat), idlePad s h p →
    fits s { items := xs ++ ys, base := none } { cap := b1 + b2, base := none } = true →
    ∃ (s1 s2 s' : State) (c1 c2 c n1 n2 n : Nat) (outs1 outs2 more : List Item),
      padCallRun s h { items := xs, base := none } { cap := b1, base := none } = .next s1 ∧
      s1.replies = .padReturned h c1 n1 { cap := b1, base := none, slots := slotsOf outs1 } :: s.replies ∧
      padCallRun s1 h { items := xs.drop c1 ++ ys, base := none } { cap := b2, base := none } = .next s2 ∧
      s2.replies = .padReturned h c2 n2 { cap := b2, base := none, slots := slotsOf outs2 } :: s1.replies ∧
      padCallRun s h { items := xs ++ ys, base := none } { cap := b1 + b2, base := none } = .next s' ∧
      s'.replies = .padReturned h c n
        { cap := b1 + b2, base := none, slots := slotsOf (outs1 ++ outs2 ++ more) } :: s.replies ∧
      c1 + c2 ≤ c ∧ n1 + n2 ≤ n

/-- 42_padding.md R164: after a marker at `t1 ≠ 0`, with `k` data items and then a marker at `t2`, exactly
`max(0, gap - k)` fillers follow the data items. -/
def Obligations.GapLawBetweenTwoMarkers : Prop :=
  ∀ (s : State) (h : Nat) (p : Pad) (xs : List Item) (t2 : BitVec 32) (cap : Nat), idlePad s h p →
    legalRate p.sampleRate = true → p.lastTimestamp ≠ 0#32 → p.itemsSinceTag = 0#32 → p.pendingPadding.toInt ≤ 0 →
    (∀ x ∈ xs, isMarker x = false) → xs.length < 2 ^ 32 → xs.length < cap →
    xs.length + ((gapItems (t2 - p.lastTimestamp) p.sampleRate).toInt - xs.length).toNat ≤ cap →
    fits s { items := xs ++ [markerItem t2], base := none } { cap := cap, base := none } = true →
    ∃ (s' : State) (p' : Pad),
      padCallRun s h { items := xs ++ [markerItem t2], base := none } { cap := cap, base := none } = .next s' ∧
      s'.replies = .padReturned h (xs.length + 1)
        (xs.length + ((gapItems (t2 - p.lastTimestamp) p.sampleRate).toInt - xs.length).toNat)
        { cap := cap, base := none
          slots := slotsOf (xs ++
            List.replicate ((gapItems (t2 - p.lastTimestamp) p.sampleRate).toInt - xs.length).toNat 0#64) } :: s.replies ∧
      s'.pads[h]? = some p' ∧ p'.lastTimestamp = t2 ∧ p'.itemsSinceTag = 0#32 ∧ p'.pendingPadding.toInt ≤ 0

/-- 42_padding.md R167: a call without capacity consumes nothing, produces nothing and changes no register. -/
def Obligations.ZeroCapacityCallDoesNothing : Prop :=
  ∀ (s : State) (h : Nat) (p : Pad) (inp : InWindow) (base : Option Nat), idlePad s h p →
    fits s inp { cap := 0, base := base } = true →
    padCallRun s h inp { cap := 0, base := base } = .next { s with
      schedule := []
      replies := .padReturned h 0 0 { cap := 0, base := base, slots := [] } :: s.replies }

/-- 30_encoding.md R106: PAD.FLUSH with a capacity of at least 1 ends, and leaves no filler owed and every other
register as it was. That the host program is a bounded function outside the machine is the model's choice (log 27). -/
def Obligations.FlushDrainsWhatIsOwed : Prop :=
  ∀ (s : State) (h : Nat) (p : Pad) (cap k : Nat), idlePad s h p → 1 ≤ cap →
    fits s { items := [], base := none } { cap := cap, base := none } = true →
    p.pendingPadding.toInt ≤ k * cap →
    ∃ (s' : State) (p' : Pad), padFlush (k + 1) h cap s = some s' ∧ s'.pads[h]? = some p' ∧
      p'.pendingPadding.toInt = min p.pendingPadding.toInt 0 ∧
      p' = { p with pendingPadding := p'.pendingPadding }

/-! ## TAG -/

/-- 43_tag.md R190, 10_state.md R41, R42: a call on an instance between calls makes it busy, with
`N = min(IN_LEN, OUT_CAP)`, both counters at 0, no annotation and no slot written; nothing else changes. The value of
`N` is the spec's decision D12 (log 24). That TAG.CALL only starts the call, and the loop of 43_tag.md R193 and the
return are later turns, is the model's reading (log 5). -/
def Obligations.TagCallStartsTheCall : Prop :=
  ∀ (s : State) (h : Nat) (t : Tag) (inp : InWindow) (out : OutSpec), idleTag s h t →
    (∀ m, s.maxCall = some m → inp.items.length ≤ m ∧ out.cap ≤ m) →
    (∀ a, inp.base = some a → a % 8 = 0) → (∀ a, out.base = some a → a % 8 = 0) →
    exec (.tagCall h inp out) s = .next { s with
      tags := s.tags.set h { t with
        call := some { i := 0, r := 0, n := min inp.items.length out.cap, inp := inp,
                       out := { cap := out.cap, base := out.base, slots := [] }, anns := [] } } }

/-- 43_tag.md R191: a data item goes to its compacted slot, nothing else changes. -/
def Obligations.TagDataCopiesToTheCompactedSlot : Prop :=
  ∀ (s : State) (h : Nat) (t : Tag) (c : TagCall) (x : Item), tagInCall s h t c → c.i < c.n → c.n ≤ c.out.cap →
    c.inp.items[c.i]? = some x → x &&& 0xFFFFFFFF#64 ≠ 0xFFFFFFFF#64 →
    ∃ slots : Memory,
      exec (.tagData h x) s = .next { s with
        tags := s.tags.set h { t with
          call := some { c with i := c.i + 1, out := { c.out with slots := slots } } } } ∧
      Memory.read slots (c.i - c.r) = some x ∧
      ∀ k, k ≠ c.i - c.r → Memory.read slots k = Memory.read c.out.slots k

/-- 43_tag.md R192, R195: a marker is removed and its annotation appended, no slot is written, nothing else changes;
the time value is `to_f64(t) *f TICK_US`, where `TICK_US` is the binary64 nearest to 10.24 and the product rounds once.
The wrap of the offset is the spec's decision D24 and the one multiplication D29 (log 24), the tick D2 (log 23), and
the encoding of the time value IEEE 754's (log 13). -/
def Obligations.TagMarkerEmitsTheAnnotation : Prop :=
  ∀ (s : State) (h : Nat) (t : Tag) (c : TagCall) (ticks : BitVec 32), tagInCall s h t c → c.i < c.n → c.r ≤ c.i →
    c.inp.items[c.i]? = some (ticks ++ 0xFFFFFFFF#32 : BitVec 64) →
    exec (.tagMarker h ticks) s = .next { s with
      tags := s.tags.set h { t with
        call := some { c with
          anns := c.anns ++
            [{ offset := BitVec.ofNat 64 (t.itemsWrittenTotal.toNat + c.i - c.r), timeValue := tagTime ticks }]
          r := c.r + 1
          i := c.i + 1 } } } ∧
    ∃ tick r : Nat,
      NearestEven (1024 * 2 ^ 1074) 100 tick ∧
      NearestEven (ticks.toNat * tick) 1 r ∧
      f64OfBits (tagTime ticks) = .fin false r

/-- 43_tag.md R194: at `i = N` the call returns, and `items_written_total` rises by `N - r`, modulo `2^64`. The
batch and the wrap are the spec's decisions D12 and D24, and a turn of its own for the return is the model's reading
(log 5, log 24). -/
def Obligations.TagCallReturnsAtTheEnd : Prop :=
  ∀ (s : State) (h : Nat) (t : Tag) (c : TagCall) (rest : List Turn), tagInCall s h t c →
    s.schedule = .agent (.tag h) :: rest → c.i = c.n →
    step s = .next { s with
      schedule := rest
      tags := s.tags.set h { t with
        itemsWrittenTotal := BitVec.ofNat 64 (t.itemsWrittenTotal.toNat + (c.n - c.r))
        call := none }
      replies := .tagReturned h c.n (c.n - c.r) c.out c.anns :: s.replies }

/-- 43_tag.md R193, R199, R201: a whole call takes `N` steps and returns the data items of `In[0 .. N-1]` in order,
without the markers, and one annotation for each marker; nothing else changes. -/
def Obligations.TagCallIsTheStreamFunction : Prop :=
  ∀ (s : State) (h : Nat) (t : Tag) (inp : InWindow) (out : OutSpec), idleTag s h t → fits s inp out = true →
    tagCallRun s h inp out = .next (s.tagReturn h t out (inp.items.take out.cap))

/-- 43_tag.md R196: the offset of a marker is the number of data items before it in the whole output stream, and two
annotations of a call differ by the number of data items between their markers. -/
def Obligations.AnnotationOffsetsCountDataItems : Prop :=
  ∀ (s : State) (h : Nat) (t : Tag) (pre mid post : List Item) (t1 t2 : BitVec 32) (cap : Nat), idleTag s h t →
    fits s { items := pre ++ markerItem t1 :: mid ++ markerItem t2 :: post, base := none }
      { cap := cap, base := none } = true →
    pre.length + mid.length + 2 ≤ cap →
    ∃ (s' : State) (consumed produced : Nat) (w : OutWindow) (anns : List Ann) (a b : Nat) (a1 a2 : Ann),
      tagCallRun s h { items := pre ++ markerItem t1 :: mid ++ markerItem t2 :: post, base := none }
        { cap := cap, base := none } = .next s' ∧
      s'.replies = .tagReturned h consumed produced w anns :: s.replies ∧
      a < b ∧ anns[a]? = some a1 ∧ anns[b]? = some a2 ∧
      a1 = { offset := t.itemsWrittenTotal + BitVec.ofNat 64 (dataItems pre).length, timeValue := tagTime t1 } ∧
      a2 = { offset := a1.offset + BitVec.ofNat 64 (dataItems mid).length, timeValue := tagTime t2 }

/-- 43_tag.md R198: what a call wrote and what it annotated add up to what it consumed, which is `N`. -/
def Obligations.TagCallConservesItems : Prop :=
  ∀ (s : State) (h : Nat) (t : Tag) (inp : InWindow) (out : OutSpec), idleTag s h t → fits s inp out = true →
    ∃ (s' : State) (produced : Nat) (w : OutWindow) (anns : List Ann),
      tagCallRun s h inp out = .next s' ∧
      s'.replies = .tagReturned h (min inp.items.length out.cap) produced w anns :: s.replies ∧
      produced + anns.length = min inp.items.length out.cap ∧
      w.slots.length = produced

/-- 43_tag.md R190: the items of `In` at and above `N` are not read: whatever they are, the call leaves the same
state. -/
def Obligations.TagReadsOnlyTheBatch : Prop :=
  ∀ (s : State) (h : Nat) (t : Tag) (xs ys zs : List Item) (cap : Nat), idleTag s h t → xs.length = cap →
    fits s { items := xs ++ ys, base := none } { cap := cap, base := none } = true →
    fits s { items := xs ++ zs, base := none } { cap := cap, base := none } = true →
    ∃ s' : State,
      tagCallRun s h { items := xs ++ ys, base := none } { cap := cap, base := none } = .next s' ∧
      tagCallRun s h { items := xs ++ zs, base := none } { cap := cap, base := none } = .next s'

/-- 43_tag.md R200: two calls give the concatenation of one call over the whole stream. -/
def Obligations.TagSplitCallsGiveTheSameStream : Prop :=
  ∀ (s : State) (h : Nat) (t : Tag) (xs ys : List Item) (b1 b2 cap : Nat), idleTag s h t →
    xs.length ≤ b1 → ys.length ≤ b2 → xs.length + ys.length ≤ cap →
    fits s { items := xs ++ ys, base := none } { cap := cap, base := none } = true →
    fits s { items := xs, base := none } { cap := b1, base := none } = true →
    fits s { items := ys, base := none } { cap := b2, base := none } = true →
    ∃ (s1 s2 s' : State) (t' : Tag) (n1 n2 : Nat) (outs1 outs2 : List Item) (anns1 anns2 : List Ann),
      tagCallRun s h { items := xs, base := none } { cap := b1, base := none } = .next s1 ∧
      s1.replies = .tagReturned h xs.length n1 { cap := b1, base := none, slots := slotsOf outs1 } anns1 :: s.replies ∧
      tagCallRun s1 h { items := ys, base := none } { cap := b2, base := none } = .next s2 ∧
      s2.replies = .tagReturned h ys.length n2 { cap := b2, base := none, slots := slotsOf outs2 } anns2 :: s1.replies ∧
      tagCallRun s h { items := xs ++ ys, base := none } { cap := cap, base := none } = .next s' ∧
      s'.replies = .tagReturned h (xs.length + ys.length) (n1 + n2)
        { cap := cap, base := none, slots := slotsOf (outs1 ++ outs2) } (anns1 ++ anns2) :: s.replies ∧
      s2.tags[h]? = some t' ∧ s'.tags[h]? = some t'

/-! ## The host contract -/

/-- 60_exceptions.md R224: an operation on an instance with `busy = 1`, on one that was never constructed, and a call
above `MAX_CALL`, are refused by name. R224 orders no two refusals: that a busy instance answers ConcurrentCall to a
call that is also too large, and that a call too large and unaligned is refused as too large, is the model's choice
(log 8). -/
def Obligations.HostContractViolationsAreRefused : Prop :=
  ∀ (s : State) (h : Nat) (inp : InWindow) (out : OutSpec),
    (∀ p c, padInCall s h p c →
      exec (.padCall h inp out) s = .refused .concurrentCall ∧ exec (.padStatus h) s = .refused .concurrentCall) ∧
    (∀ t c, tagInCall s h t c →
      exec (.tagCall h inp out) s = .refused .concurrentCall ∧ exec (.tagStatus h) s = .refused .concurrentCall) ∧
    (s.pads.length ≤ h → ∀ ticks x,
      exec (.padCall h inp out) s = .refused .notConstructed ∧ exec (.padStatus h) s = .refused .notConstructed ∧
      exec (.padDrain h) s = .refused .notConstructed ∧ exec (.padMarker h ticks) s = .refused .notConstructed ∧
      exec (.padData h x) s = .refused .notConstructed) ∧
    (s.tags.length ≤ h → ∀ ticks x,
      exec (.tagCall h inp out) s = .refused .notConstructed ∧ exec (.tagStatus h) s = .refused .notConstructed ∧
      exec (.tagMarker h ticks) s = .refused .notConstructed ∧ exec (.tagData h x) s = .refused .notConstructed) ∧
    (∀ m, s.maxCall = some m → m < inp.items.length ∨ m < out.cap →
      (∀ p, idlePad s h p → exec (.padCall h inp out) s = .refused .callTooLarge) ∧
      (∀ t, idleTag s h t → exec (.tagCall h inp out) s = .refused .callTooLarge))

/-- 60_exceptions.md R224: a refused instance stays refused and takes no further step, however the others go on
(the continuation after a refusal is the model's, log 7). -/
def Obligations.RefusedInstanceStaysRefused : Prop :=
  ∀ (s s' : State) (h : Nat) (r : Refusal), stepOn s = .next s' →
    (∀ p, s.pads[h]? = some p → p.refused = some r → s'.pads[h]? = some p) ∧
    (∀ t, s.tags[h]? = some t → t.refused = some r → s'.tags[h]? = some t)

/-- 60_exceptions.md R224: a call on a busy instance, or a status read of one, leaves that instance refused with this
name, its registers as they were, and the other instances free to go on (the continuation is the model's, log 7). -/
def Obligations.ConcurrentCallMarksTheInstance : Prop :=
  ∀ (s : State) (h : Nat) (inp : InWindow) (out : OutSpec) (r : Request) (rest : List Turn),
    s.schedule = .host r :: rest →
    (∀ p c, padInCall s h p c → r = .padCall h inp out ∨ r = .padStatus h →
      step s = .refused .concurrentCall ∧
      stepOn s = .next { s with
        schedule := rest
        pads := s.pads.set h { p with refused := some .concurrentCall } }) ∧
    (∀ t c, tagInCall s h t c → r = .tagCall h inp out ∨ r = .tagStatus h →
      step s = .refused .concurrentCall ∧
      stepOn s = .next { s with
        schedule := rest
        tags := s.tags.set h { t with refused := some .concurrentCall } })

/-- 20_memory.md R63: a call whose window is mapped to bytes at a base that is no multiple of 8 is refused. -/
def Obligations.UnalignedWindowsAreRefused : Prop :=
  ∀ (s : State) (h : Nat) (inp : InWindow) (out : OutSpec) (a : Nat), a % 8 ≠ 0 →
    inp.base = some a ∨ out.base = some a →
    (∀ m, s.maxCall = some m → inp.items.length ≤ m ∧ out.cap ≤ m) →
    (∀ p, idlePad s h p → exec (.padCall h inp out) s = .refused .unalignedWindow) ∧
    (∀ t, idleTag s h t → exec (.tagCall h inp out) s = .refused .unalignedWindow)

/-- 20_memory.md R62, R63: whatever the byte order, an item is its eight bytes, and item `k` lies at
`base + 8*k`. -/
def Obligations.BytesOfAnItemGiveItBack : Prop :=
  ∀ (order : ByteOrder) (x : Item) (base k : Nat),
    itemOfBytes order (itemBytes order x) = x ∧
    (itemCells order (itemAddress base k) x).map Prod.fst = (List.range 8).map (base + 8 * k + ·)

/-! ## The step -/

/-- When the host's request is the next move, the step is the decoded operation, with the schedule moved on. -/
def Obligations.StepRunsTheHostsRequest : Prop :=
  ∀ (s : State) (r : Request) (rest : List Turn), s.schedule = .host r :: rest →
    step s = exec (decode (.host r)) { s with schedule := rest }

/-- 30_encoding.md R97: inside a PAD call, the step is the one selected operation: PAD.DRAIN where a filler is owed,
else the operation of the item read. -/
def Obligations.StepRunsTheSelectedPadOperation : Prop :=
  ∀ (s : State) (h : Nat) (p : Pad) (c : PadCall) (rest : List Turn), padInCall s h p c →
    s.schedule = .agent (.pad h) :: rest → c.o < c.out.cap →
    (0 < p.pendingPadding.toInt → step s = exec (.padDrain h) { s with schedule := rest }) ∧
    (p.pendingPadding.toInt ≤ 0 → ∀ x, c.inp.items[c.i]? = some x →
      (x &&& 0xFFFFFFFF#64 = 0xFFFFFFFF#64 →
        step s = exec (.padMarker h (x.extractLsb' 32 32)) { s with schedule := rest }) ∧
      (x &&& 0xFFFFFFFF#64 ≠ 0xFFFFFFFF#64 → step s = exec (.padData h x) { s with schedule := rest }))

/-- 30_encoding.md R97: inside a TAG call, the step is the operation of the item read. -/
def Obligations.StepRunsTheSelectedTagOperation : Prop :=
  ∀ (s : State) (h : Nat) (t : Tag) (c : TagCall) (x : Item) (rest : List Turn), tagInCall s h t c →
    s.schedule = .agent (.tag h) :: rest → c.i < c.n → c.inp.items[c.i]? = some x →
    (x &&& 0xFFFFFFFF#64 = 0xFFFFFFFF#64 →
      step s = exec (.tagMarker h (x.extractLsb' 32 32)) { s with schedule := rest }) ∧
    (x &&& 0xFFFFFFFF#64 ≠ 0xFFFFFFFF#64 → step s = exec (.tagData h x) { s with schedule := rest })

/-- The machine's own refusal `notSelected` is never a step's answer: a step runs only what 30_encoding.md R97 selects
(log 19). -/
def Obligations.NoStepIsRefusedAsNotSelected : Prop :=
  ∀ s : State, (∀ p ∈ s.pads, p.refused ≠ some .notSelected) → (∀ t ∈ s.tags, t.refused ≠ some .notSelected) →
    step s ≠ .refused .notSelected

/-- 60_exceptions.md R232: with no request to come and every instance between calls, the block holds its state
(log 4). -/
def Obligations.BetweenCallsTheStateIsHeld : Prop :=
  ∀ s : State, s.schedule = [] → (∀ p ∈ s.pads, p.call = none) → (∀ t ∈ s.tags, t.call = none) → step s = .next s

/-! ## Rules about every step -/

/-- The invariant is kept by every step, from every state: cursors in range, windows that hold exactly the produced
slots and no marker, legal rates, and calls that return what they promise. -/
def Obligations.EveryStepKeepsTheInvariant : Prop := ∀ s s' : State, s.Inv → step s = .next s' → s'.Inv

/-- Every step keeps every in-flight window in the canonical form. -/
def Obligations.EveryStepKeepsTheCanonicalForm : Prop := ∀ s s' : State, s.memWf → step s = .next s' → s'.memWf

/-- 42_padding.md R158: every step keeps every `pending_padding` in `[-(2^32-1), 8.80e18]`. -/
def Obligations.EveryStepKeepsPendingPaddingInRange : Prop :=
  ∀ s s' : State, (∀ p ∈ s.pads, p.inRange) → step s = .next s' → ∀ p ∈ s'.pads, p.inRange

/-- 10_state.md R37: no step changes an instance's `sample_rate`. -/
def Obligations.SampleRateIsFixedForLife : Prop :=
  ∀ (s s' : State) (h : Nat) (p : Pad), step s = .next s' → s.pads[h]? = some p →
    ∃ p', s'.pads[h]? = some p' ∧ p'.sampleRate = p.sampleRate

/-- 10_state.md R33: each register of PAD is written by the operations its row names, and by no other. -/
def Obligations.PadRegistersAreWrittenByTheirOperations : Prop :=
  ∀ (i : Instr) (s s' : State) (h : Nat) (p : Pad), exec i s = .next s' → s.pads[h]? = some p →
    ∃ p', s'.pads[h]? = some p' ∧
      (p'.lastTimestamp ≠ p.lastTimestamp → ∃ t, i = .padMarker h t ∧ p'.lastTimestamp = t) ∧
      (p'.itemsSinceTag ≠ p.itemsSinceTag → (∃ x, i = .padData h x) ∨ ∃ t, i = .padMarker h t) ∧
      (p'.pendingPadding ≠ p.pendingPadding → i = .padDrain h ∨ ∃ t, i = .padMarker h t) ∧
      p'.sampleRate = p.sampleRate

/-- 10_state.md R38: no operation writes TAG's register, and a step that changes it is the instance's own turn at the
end of its call, which adds the `N - r` items written (43_tag.md R194). That TAG.CALL itself does not write it, and that
the end of a call is a turn, is the model's reading (log 5). -/
def Obligations.TagRegisterIsWrittenOnlyAtTheEndOfACall : Prop :=
  ∀ (s s' : State) (h : Nat) (t : Tag), s.tags[h]? = some t →
    (∀ i : Instr, exec i s = .next s' →
      ∃ t', s'.tags[h]? = some t' ∧ t'.itemsWrittenTotal = t.itemsWrittenTotal) ∧
    (step s = .next s' →
      ∃ t', s'.tags[h]? = some t' ∧
        (t'.itemsWrittenTotal ≠ t.itemsWrittenTotal → ∃ c, t.call = some c ∧ c.n ≤ c.i ∧
          s.nextTurn = some (.agent (.tag h)) ∧
          t' = { t with
            itemsWrittenTotal := t.itemsWrittenTotal + BitVec.ofNat 64 (c.n - c.r)
            call := none }))

/-- 20_memory.md R72, 60_exceptions.md R231: a move, scheduled or not, leaves every instance it is not about as it was.
Which instance moves when nothing is scheduled is the model's choice (log 3). -/
def Obligations.OtherInstancesAreUntouched : Prop :=
  ∀ (s s' : State) (m : Turn), s.nextTurn = some m → step s = .next s' →
    (∀ h p, m.agent? ≠ some (.pad h) → s.pads[h]? = some p → s'.pads[h]? = some p) ∧
    (∀ h t, m.agent? ≠ some (.tag h) → s.tags[h]? = some t → s'.tags[h]? = some t)

/-- 20_memory.md R72: the steps of two different instances may be taken in either order: the instances end the
same. -/
def Obligations.StepsOfTwoInstancesCommute : Prop :=
  ∀ (s s1 : State) (a b : AgentId), a ≠ b → runTurns [.agent a, .agent b] s = .next s1 →
    ∃ s2, runTurns [.agent b, .agent a] s = .next s2 ∧ s2.pads = s1.pads ∧ s2.tags = s1.tags
end

