-- ==== Sys2Proof/Laws/Operands.lean ====
section
/-! SUPPORT. The bits of a marker item and of the codec's words. -/

namespace Sys2Proof.Machine

theorem markerItem_bit (ticks : BitVec 32) (i : Nat) :
    (markerItem ticks).getLsbD i = if i < 32 then markerLow.getLsbD i else ticks.getLsbD (i - 32) :=
  BitVec.getLsbD_append

@[simp] theorem isMarker_markerItem (ticks : BitVec 32) : isMarker (markerItem ticks) = true := by
  simp only [isMarker, beq_iff_eq]
  apply BitVec.eq_of_getLsbD_eq
  intro i hi
  simp [markerItem_bit, hi]

@[simp] theorem ticksOf_markerItem (ticks : BitVec 32) : ticksOf (markerItem ticks) = ticks := by
  apply BitVec.eq_of_getLsbD_eq
  intro i hi
  simp [ticksOf, markerItem_bit, hi]

/-- A marker is its timestamp above the sentinel. -/
theorem markerItem_ticksOf {x : Item} (h : isMarker x = true) : markerItem (ticksOf x) = x := by
  simp only [isMarker, beq_iff_eq] at h
  apply BitVec.eq_of_getLsbD_eq
  intro i hi
  rw [markerItem_bit, ← h]
  split
  · rename_i h32
    simp only [BitVec.getLsbD_extractLsb']
    simp [h32]
  · simp only [ticksOf, BitVec.getLsbD_extractLsb']
    simp [show i - 32 < 32 by omega, show 32 + (i - 32) = i by omega]

@[simp] theorem isMarker_filler : isMarker filler = false := by decide

/-- The bits of `CSW0`, field by field (30_encoding.md R91). -/
theorem csw0_bit (timeLo : BitVec 16) (avg : Bool) (index : BitVec 11) (timeHi : BitVec 4) (i : Nat) :
    (csw0 timeLo avg index timeHi).getLsbD i =
      if i < 4 then timeHi.getLsbD i
      else if i < 15 then index.getLsbD (i - 4)
      else if i = 15 then avg
      else timeLo.getLsbD (i - 16) := by
  have h1 : (csw0 timeLo avg index timeHi).getLsbD i =
      if i < 4 then timeHi.getLsbD i else ((timeLo ++ BitVec.ofBool avg) ++ index).getLsbD (i - 4) :=
    BitVec.getLsbD_append
  rw [h1, BitVec.getLsbD_append, BitVec.getLsbD_append]
  by_cases h4 : i < 4
  · simp [h4]
  by_cases h15 : i < 15
  · simp [h4, h15, show i - 4 < 11 by omega]
  by_cases he : i = 15
  · subst he
    simp
  · simp [h4, h15, he, show ¬ i - 4 < 11 by omega, show i - 4 - 11 - 1 = i - 16 by omega,
      show i - 4 - 11 ≠ 0 by omega]

/-- The bits of the second codec word (30_encoding.md R92, R93). -/
theorem csw1_bit (high low : BitVec 16) (i : Nat) :
    (csw1 high low).getLsbD i = if i < 16 then low.getLsbD i else high.getLsbD (i - 16) :=
  BitVec.getLsbD_append

/-- The bits of the time field (30_encoding.md R96). -/
theorem codecTime_bit (timeHi : BitVec 4) (timeLo : BitVec 16) (i : Nat) :
    (codecTime timeHi timeLo).getLsbD i = if i < 16 then timeLo.getLsbD i else timeHi.getLsbD (i - 16) :=
  BitVec.getLsbD_append

/-- The bits of the magnitude: the halves swap (30_encoding.md R96). -/
theorem magnitude_bit (high low : BitVec 16) (i : Nat) :
    (magnitude high low).getLsbD i = if i < 16 then high.getLsbD i else low.getLsbD (i - 16) :=
  BitVec.getLsbD_append

end Sys2Proof.Machine
end

