-- ==== Sys2Proof/Laws/Memory.lean ====
section
/-! SUPPORT. The laws of the windows' memory: read after write, the frame of a write, and that every operation keeps
the canonical form. -/

namespace Sys2Proof.Machine

theorem Memory.read_write_same (m : Memory) (k : Nat) (x : Item) : Memory.read (Memory.write m k x) k = some x := by
  induction m with
  | nil => simp [Memory.write, Memory.read]
  | cons ay rest ih =>
    obtain ⟨a, y⟩ := ay
    simp only [Memory.write]
    split
    · simp [Memory.read]
    · split
      · simp [Memory.read]
      · simp only [Memory.read]
        split
        · omega
        · exact ih

theorem Memory.read_write_other (m : Memory) (k j : Nat) (x : Item) (h : j ≠ k) :
    Memory.read (Memory.write m k x) j = Memory.read m j := by
  induction m with
  | nil => simp [Memory.write, Memory.read]; omega
  | cons ay rest ih =>
    obtain ⟨a, y⟩ := ay
    simp only [Memory.write]
    split
    · simp only [Memory.read]; split <;> [omega; rfl]
    · split
      · simp only [Memory.read]; split <;> split <;> first | omega | rfl
      · simp only [Memory.read]; split <;> [rfl; exact ih]

/-- A write puts its index first, or keeps the first index where that is lower. -/
theorem Memory.write_first (a : Nat) (y : Item) (rest : Memory) (k : Nat) (x : Item) :
    ∃ b z rest', Memory.write ((a, y) :: rest) k x = (b, z) :: rest' ∧ (b = k ∧ k ≤ a ∨ b = a ∧ a < k) := by
  simp only [Memory.write]
  split
  · exact ⟨k, x, _, rfl, .inl ⟨rfl, by omega⟩⟩
  · split
    · exact ⟨k, x, _, rfl, .inl ⟨rfl, by omega⟩⟩
    · exact ⟨a, y, _, rfl, .inr ⟨rfl, by omega⟩⟩

/-- Every write keeps the canonical form. -/
theorem Memory.write_wf (m : Memory) (k : Nat) (x : Item) (hm : Memory.wf m = true) :
    Memory.wf (Memory.write m k x) = true := by
  induction m with
  | nil => rfl
  | cons ay rest ih =>
    obtain ⟨a, y⟩ := ay
    simp only [Memory.write]
    split
    · simp [Memory.wf, *]
    · split
      · subst k
        cases rest with
        | nil => rfl
        | cons bz rest => simpa [Memory.wf] using hm
      · cases rest with
        | nil => simp [Memory.write, Memory.wf]; omega
        | cons bz rest =>
          obtain ⟨b, z⟩ := bz
          simp only [Memory.wf, Bool.and_eq_true, decide_eq_true_eq] at hm
          have hrest := ih hm.2
          obtain ⟨b', z', rest', he, hb⟩ := Memory.write_first b z rest k x
          rw [he] at hrest ⊢
          simp only [Memory.wf, Bool.and_eq_true, decide_eq_true_eq]
          exact ⟨by omega, hrest⟩

/-- What a successful window write does: there is such a slot, and only the slots' contents change. -/
theorem OutWindow.write_some {w w' : OutWindow} {k : Nat} {x : Item} (h : w.write k x = some w') :
    k < w.cap ∧ w' = { w with slots := Memory.write w.slots k x } := by
  unfold OutWindow.write at h
  split at h
  · exact ⟨‹_›, (Option.some.inj h).symm⟩
  · cases h

theorem OutWindow.write_of_lt (w : OutWindow) {k : Nat} (x : Item) (h : k < w.cap) :
    w.write k x = some { w with slots := Memory.write w.slots k x } := if_pos h

/-- A write just above slots `0 .. n-1` extends them by one. -/
theorem Memory.write_append (m : Memory) (n : Nat) (x : Item) (h : m.map Prod.fst = List.range' s n) :
    Memory.write m (s + n) x = m ++ [(s + n, x)] := by
  induction m generalizing s n with
  | nil => simp [Memory.write]
  | cons ay rest ih =>
    obtain ⟨a, y⟩ := ay
    cases n with
    | zero => simp at h
    | succ n =>
      simp only [List.map_cons, List.range'_succ, List.cons.injEq] at h
      obtain ⟨rfl, h⟩ := h
      have h1 : ¬ a + (n + 1) < a := by omega
      have h2 : ¬ a + (n + 1) = a := by omega
      have := ih n h
      rw [show a + 1 + n = a + (n + 1) by omega] at this
      simp [Memory.write, this]

theorem Memory.write_next (m : Memory) (n : Nat) (x : Item) (h : m.map Prod.fst = List.range n) :
    Memory.write m n x = m ++ [(n, x)] := by
  have := Memory.write_append (s := 0) m n x (by rw [h, List.range_eq_range'])
  simpa using this

/-- Slots numbered from 0 are in the canonical form. -/
theorem Memory.wf_of_range (m : Memory) (s n : Nat) (h : m.map Prod.fst = List.range' s n) : Memory.wf m = true := by
  induction m generalizing s n with
  | nil => rfl
  | cons ay rest ih =>
    obtain ⟨a, y⟩ := ay
    cases n with
    | zero => simp at h
    | succ n =>
      simp only [List.map_cons, List.range'_succ, List.cons.injEq] at h
      obtain ⟨rfl, h⟩ := h
      have hw := ih _ _ h
      cases rest with
      | nil => rfl
      | cons bz rest =>
        obtain ⟨b, z⟩ := bz
        cases n with
        | zero => simp at h
        | succ n =>
          simp only [List.map_cons, List.range'_succ, List.cons.injEq] at h
          simp only [Memory.wf, Bool.and_eq_true, decide_eq_true_eq]
          exact ⟨by omega, hw⟩

end Sys2Proof.Machine
end

