-- ==== Sys2Proof/Laws/State.lean ====
section
/-! SUPPORT. One lemma per field per update of the state, so that no proof unfolds a record update. -/

namespace Sys2Proof.Machine

@[simp] theorem State.setPad_pads (s : State) (h : Nat) (p : Pad) : (s.setPad h p).pads = s.pads.set h p := rfl
@[simp] theorem State.setPad_tags (s : State) (h : Nat) (p : Pad) : (s.setPad h p).tags = s.tags := rfl
@[simp] theorem State.setPad_replies (s : State) (h : Nat) (p : Pad) : (s.setPad h p).replies = s.replies := rfl
@[simp] theorem State.setPad_schedule (s : State) (h : Nat) (p : Pad) : (s.setPad h p).schedule = s.schedule := rfl
@[simp] theorem State.setPad_maxCall (s : State) (h : Nat) (p : Pad) : (s.setPad h p).maxCall = s.maxCall := rfl

@[simp] theorem State.setTag_pads (s : State) (h : Nat) (t : Tag) : (s.setTag h t).pads = s.pads := rfl
@[simp] theorem State.setTag_tags (s : State) (h : Nat) (t : Tag) : (s.setTag h t).tags = s.tags.set h t := rfl
@[simp] theorem State.setTag_replies (s : State) (h : Nat) (t : Tag) : (s.setTag h t).replies = s.replies := rfl
@[simp] theorem State.setTag_schedule (s : State) (h : Nat) (t : Tag) : (s.setTag h t).schedule = s.schedule := rfl
@[simp] theorem State.setTag_maxCall (s : State) (h : Nat) (t : Tag) : (s.setTag h t).maxCall = s.maxCall := rfl

@[simp] theorem State.reply_pads (s : State) (r : Reply) : (s.reply r).pads = s.pads := rfl
@[simp] theorem State.reply_tags (s : State) (r : Reply) : (s.reply r).tags = s.tags := rfl
@[simp] theorem State.reply_replies (s : State) (r : Reply) : (s.reply r).replies = r :: s.replies := rfl
@[simp] theorem State.reply_schedule (s : State) (r : Reply) : (s.reply r).schedule = s.schedule := rfl
@[simp] theorem State.reply_maxCall (s : State) (r : Reply) : (s.reply r).maxCall = s.maxCall := rfl

@[simp] theorem State.dropTurn_pads (s : State) : (s.dropTurn).pads = s.pads := rfl
@[simp] theorem State.dropTurn_tags (s : State) : (s.dropTurn).tags = s.tags := rfl
@[simp] theorem State.dropTurn_replies (s : State) : (s.dropTurn).replies = s.replies := rfl
@[simp] theorem State.dropTurn_schedule (s : State) : (s.dropTurn).schedule = s.schedule.tail := rfl
@[simp] theorem State.dropTurn_maxCall (s : State) : (s.dropTurn).maxCall = s.maxCall := rfl

@[simp] theorem State.finishPad_pads (s : State) (h : Nat) (p : Pad) (c : PadCall) : (s.finishPad h p c).pads = s.pads.set h { p with call := none } := rfl
@[simp] theorem State.finishPad_tags (s : State) (h : Nat) (p : Pad) (c : PadCall) : (s.finishPad h p c).tags = s.tags := rfl
@[simp] theorem State.finishPad_replies (s : State) (h : Nat) (p : Pad) (c : PadCall) : (s.finishPad h p c).replies = .padReturned h c.i c.o c.out :: s.replies := rfl
@[simp] theorem State.finishPad_schedule (s : State) (h : Nat) (p : Pad) (c : PadCall) : (s.finishPad h p c).schedule = s.schedule := rfl
@[simp] theorem State.finishPad_maxCall (s : State) (h : Nat) (p : Pad) (c : PadCall) : (s.finishPad h p c).maxCall = s.maxCall := rfl

@[simp] theorem State.finishTag_pads (s : State) (h : Nat) (t : Tag) (c : TagCall) : (s.finishTag h t c).pads = s.pads := rfl
@[simp] theorem State.finishTag_tags (s : State) (h : Nat) (t : Tag) (c : TagCall) : (s.finishTag h t c).tags = s.tags.set h
    { t with itemsWrittenTotal := t.itemsWrittenTotal + BitVec.ofNat 64 (c.n - c.r), call := none } := rfl
@[simp] theorem State.finishTag_replies (s : State) (h : Nat) (t : Tag) (c : TagCall) : (s.finishTag h t c).replies = .tagReturned h c.n (c.n - c.r) c.out c.anns :: s.replies := rfl
@[simp] theorem State.finishTag_schedule (s : State) (h : Nat) (t : Tag) (c : TagCall) : (s.finishTag h t c).schedule = s.schedule := rfl
@[simp] theorem State.finishTag_maxCall (s : State) (h : Nat) (t : Tag) (c : TagCall) : (s.finishTag h t c).maxCall = s.maxCall := rfl

@[simp] theorem Pad.fresh_lastTimestamp (rate : BitVec 64) : (Pad.fresh rate).lastTimestamp = 0#32 := rfl
@[simp] theorem Pad.fresh_itemsSinceTag (rate : BitVec 64) : (Pad.fresh rate).itemsSinceTag = 0#32 := rfl
@[simp] theorem Pad.fresh_pendingPadding (rate : BitVec 64) : (Pad.fresh rate).pendingPadding = 0#64 := rfl
@[simp] theorem Pad.fresh_sampleRate (rate : BitVec 64) : (Pad.fresh rate).sampleRate = rate := rfl
@[simp] theorem Pad.fresh_call (rate : BitVec 64) : (Pad.fresh rate).call = none := rfl
@[simp] theorem Pad.fresh_refused (rate : BitVec 64) : (Pad.fresh rate).refused = none := rfl

@[simp] theorem Pad.pay_lastTimestamp (p : Pad) (d : Nat) : (p.pay d).lastTimestamp = p.lastTimestamp := rfl
@[simp] theorem Pad.pay_itemsSinceTag (p : Pad) (d : Nat) : (p.pay d).itemsSinceTag = p.itemsSinceTag := rfl
@[simp] theorem Pad.pay_pendingPadding (p : Pad) (d : Nat) : (p.pay d).pendingPadding = p.pendingPadding - BitVec.ofNat 64 d := rfl
@[simp] theorem Pad.pay_sampleRate (p : Pad) (d : Nat) : (p.pay d).sampleRate = p.sampleRate := rfl
@[simp] theorem Pad.pay_call (p : Pad) (d : Nat) : (p.pay d).call = p.call := rfl
@[simp] theorem Pad.pay_refused (p : Pad) (d : Nat) : (p.pay d).refused = p.refused := rfl

@[simp] theorem Pad.absorb_lastTimestamp (p : Pad) (ticks : BitVec 32) : (p.absorb ticks).lastTimestamp = ticks := rfl
@[simp] theorem Pad.absorb_itemsSinceTag (p : Pad) (ticks : BitVec 32) : (p.absorb ticks).itemsSinceTag = 0#32 := rfl
@[simp] theorem Pad.absorb_pendingPadding (p : Pad) (ticks : BitVec 32) : (p.absorb ticks).pendingPadding = p.gap ticks := rfl
@[simp] theorem Pad.absorb_sampleRate (p : Pad) (ticks : BitVec 32) : (p.absorb ticks).sampleRate = p.sampleRate := rfl
@[simp] theorem Pad.absorb_call (p : Pad) (ticks : BitVec 32) : (p.absorb ticks).call = p.call := rfl
@[simp] theorem Pad.absorb_refused (p : Pad) (ticks : BitVec 32) : (p.absorb ticks).refused = p.refused := rfl

@[simp] theorem Pad.count_lastTimestamp (p : Pad) : (p.count).lastTimestamp = p.lastTimestamp := rfl
@[simp] theorem Pad.count_itemsSinceTag (p : Pad) : (p.count).itemsSinceTag = p.itemsSinceTag + 1#32 := rfl
@[simp] theorem Pad.count_pendingPadding (p : Pad) : (p.count).pendingPadding = p.pendingPadding := rfl
@[simp] theorem Pad.count_sampleRate (p : Pad) : (p.count).sampleRate = p.sampleRate := rfl
@[simp] theorem Pad.count_call (p : Pad) : (p.count).call = p.call := rfl
@[simp] theorem Pad.count_refused (p : Pad) : (p.count).refused = p.refused := rfl

@[simp] theorem PadCall.start_i (inp : InWindow) (out : OutSpec) : (PadCall.start inp out).i = 0 := rfl
@[simp] theorem PadCall.start_o (inp : InWindow) (out : OutSpec) : (PadCall.start inp out).o = 0 := rfl
@[simp] theorem PadCall.start_inp (inp : InWindow) (out : OutSpec) : (PadCall.start inp out).inp = inp := rfl
@[simp] theorem PadCall.start_out (inp : InWindow) (out : OutSpec) : (PadCall.start inp out).out = openWindow out := rfl

@[simp] theorem TagCall.start_i (inp : InWindow) (out : OutSpec) : (TagCall.start inp out).i = 0 := rfl
@[simp] theorem TagCall.start_r (inp : InWindow) (out : OutSpec) : (TagCall.start inp out).r = 0 := rfl
@[simp] theorem TagCall.start_n (inp : InWindow) (out : OutSpec) : (TagCall.start inp out).n = min inp.items.length out.cap := rfl
@[simp] theorem TagCall.start_inp (inp : InWindow) (out : OutSpec) : (TagCall.start inp out).inp = inp := rfl
@[simp] theorem TagCall.start_out (inp : InWindow) (out : OutSpec) : (TagCall.start inp out).out = openWindow out := rfl
@[simp] theorem TagCall.start_anns (inp : InWindow) (out : OutSpec) : (TagCall.start inp out).anns = [] := rfl

@[simp] theorem openWindow_cap (out : OutSpec) : (openWindow out).cap = out.cap := rfl
@[simp] theorem openWindow_base (out : OutSpec) : (openWindow out).base = out.base := rfl
@[simp] theorem openWindow_slots (out : OutSpec) : (openWindow out).slots = [] := rfl

end Sys2Proof.Machine
end

