-- ==== Sys2Proof/Laws/Ops.lean ====
section
/-! SUPPORT. One lemma per shared operation that says when it goes on (the `_of` lemmas) and what must have held when
it answered a next state (the `_next` lemmas). -/

namespace Sys2Proof.Machine

/-! ## The host contract -/

theorem State.onPad_of {s : State} {h : Nat} {p : Pad} (hp : s.pads[h]? = some p) (hr : p.refused = none)
    (act : Pad → Result State) : s.onPad h act = act p := by
  simp [State.onPad, hp, hr]

theorem State.onTag_of {s : State} {h : Nat} {t : Tag} (ht : s.tags[h]? = some t) (hr : t.refused = none)
    (act : Tag → Result State) : s.onTag h act = act t := by
  simp [State.onTag, ht, hr]

theorem State.onPad_next {s s' : State} {h : Nat} {act : Pad → Result State} (hn : s.onPad h act = .next s') :
    ∃ p, s.pads[h]? = some p ∧ p.refused = none ∧ act p = .next s' := by
  unfold State.onPad at hn
  split at hn
  · cases hn
  · rename_i p hp
    split at hn
    · cases hn
    · exact ⟨p, hp, ‹_›, hn⟩

theorem State.onTag_next {s s' : State} {h : Nat} {act : Tag → Result State} (hn : s.onTag h act = .next s') :
    ∃ t, s.tags[h]? = some t ∧ t.refused = none ∧ act t = .next s' := by
  unfold State.onTag at hn
  split at hn
  · cases hn
  · rename_i t ht
    split at hn
    · cases hn
    · exact ⟨t, ht, ‹_›, hn⟩

theorem unlessBusy_next {busy : Bool} {res : Result State} {s' : State} (hn : unlessBusy busy res = .next s') :
    busy = false ∧ res = .next s' := by
  unfold unlessBusy at hn
  split at hn
  · cases hn
  · exact ⟨by simpa using ‹¬busy = true›, hn⟩

theorem State.ifFits_of {s : State} {inp : InWindow} {out : OutSpec} (hf : fits s inp out = true) (res : Result State) :
    s.ifFits inp out res = res := by
  simp only [fits, Bool.and_eq_true, Bool.not_eq_true'] at hf
  simp [State.ifFits, hf.1.1, hf.1.2, hf.2]

theorem State.ifFits_next {s s' : State} {inp : InWindow} {out : OutSpec} {res : Result State}
    (hn : s.ifFits inp out res = .next s') : fits s inp out = true ∧ res = .next s' := by
  unfold State.ifFits at hn
  split at hn
  · cases hn
  · split at hn
    · rename_i h1 h2
      refine ⟨?_, hn⟩
      simp only [Bool.and_eq_true] at h2
      simp [fits, h1, h2.1, h2.2]
    · cases hn

/-- `fits` in the terms of the spec: neither length above `MAX_CALL`, no unaligned base. -/
theorem fits_iff {s : State} {inp : InWindow} {out : OutSpec} :
    fits s inp out = true ↔
      (∀ m, s.maxCall = some m → inp.items.length ≤ m ∧ out.cap ≤ m) ∧
        (∀ a, inp.base = some a → a % 8 = 0) ∧ ∀ a, out.base = some a → a % 8 = 0 := by
  unfold fits tooLarge
  cases s.maxCall <;> cases inp.base <;> cases out.base <;> simp [alignedBase, and_assoc]

/-! ## Selection -/

theorem padSelect_owes {h : Nat} {p : Pad} {c : PadCall} (ho : 0 < p.pendingPadding.toInt) (hc : c.o < c.out.cap) :
    padSelect h p c = .op (.padOwed h) := by
  simp [padSelect, Pad.owes, ho, hc]

theorem padSelect_item {h : Nat} {p : Pad} {c : PadCall} {x : Item} (ho : p.pendingPadding.toInt ≤ 0)
    (hc : c.o < c.out.cap) (hx : c.inp.items[c.i]? = some x) : padSelect h p c = .op (.padItem h x) := by
  simp [padSelect, Pad.owes, Int.not_lt.2 ho, hc, hx]

/-- PAD's selection, case by case (30_encoding.md R97, 42_padding.md R159). -/
theorem padSelect_cases (h : Nat) (p : Pad) (c : PadCall) :
    (0 < p.pendingPadding.toInt ∧ c.o < c.out.cap ∧ padSelect h p c = .op (.padOwed h)) ∨
    (p.pendingPadding.toInt ≤ 0 ∧ c.o < c.out.cap ∧
      ∃ x, c.inp.items[c.i]? = some x ∧ padSelect h p c = .op (.padItem h x)) ∨
    (padSelect h p c = .finish ∧
      (c.out.cap ≤ c.o ∨ p.pendingPadding.toInt ≤ 0 ∧ c.inp.items.length ≤ c.i)) := by
  unfold padSelect Pad.owes
  by_cases ho : 0 < p.pendingPadding.toInt <;> by_cases hc : c.o < c.out.cap
  · exact .inl ⟨ho, hc, by simp [ho, hc]⟩
  · exact .inr (.inr ⟨by simp [ho, hc], .inl (by omega)⟩)
  · cases hx : c.inp.items[c.i]? with
    | some x => exact .inr (.inl ⟨by omega, hc, x, rfl, by simp [ho, hc]⟩)
    | none => exact .inr (.inr ⟨by simp [ho, hc], .inr ⟨by omega, by simpa using hx⟩⟩)
  · exact .inr (.inr ⟨by simp [ho, hc], .inl (by omega)⟩)

/-- TAG's selection, case by case (30_encoding.md R97). -/
theorem tagSelect_cases (h : Nat) (c : TagCall) :
    (c.i < c.n ∧ ∃ x, c.inp.items[c.i]? = some x ∧ tagSelect h c = .op (.tagItem h x)) ∨
    (c.i < c.n ∧ c.inp.items.length ≤ c.i ∧ tagSelect h c = .noSlot) ∨
    (c.n ≤ c.i ∧ tagSelect h c = .finish) := by
  unfold tagSelect
  by_cases hc : c.i < c.n
  · cases hx : c.inp.items[c.i]? with
    | some x => exact .inl ⟨hc, x, rfl, by simp [hc]⟩
    | none => exact .inr (.inl ⟨hc, by simpa using hx, by simp [hc]⟩)
  · exact .inr (.inr ⟨by omega, by simp [hc]⟩)

theorem State.padStep_of {s : State} {h : Nat} {i : Instr} {p : Pad} {c : PadCall} (hc : padInCall s h p c)
    (hsel : padSelect h p c = .op (encode i)) (hi : i.wf = true) (act : Pad → PadCall → Result State) :
    s.padStep h i act = act p c := by
  obtain ⟨hp, hcall, hr⟩ := hc
  simp [State.padStep, State.onPad_of hp hr, hcall, hsel, hi]

theorem State.tagStep_of {s : State} {h : Nat} {i : Instr} {t : Tag} {c : TagCall} (hc : tagInCall s h t c)
    (hsel : tagSelect h c = .op (encode i)) (hi : i.wf = true) (act : Tag → TagCall → Result State) :
    s.tagStep h i act = act t c := by
  obtain ⟨ht, hcall, hr⟩ := hc
  simp [State.tagStep, State.onTag_of ht hr, hcall, hsel, hi]

theorem State.padStep_next {s s' : State} {h : Nat} {i : Instr} {act : Pad → PadCall → Result State}
    (hn : s.padStep h i act = .next s') :
    ∃ p c, padInCall s h p c ∧ padSelect h p c = .op (encode i) ∧ i.wf = true ∧ act p c = .next s' := by
  obtain ⟨p, hp, hr, ha⟩ := State.onPad_next hn
  split at ha
  · cases ha
  · rename_i c hc
    split at ha
    · rename_i hs
      exact ⟨p, c, ⟨hp, hc, hr⟩, hs.1, hs.2, ha⟩
    · cases ha

theorem State.tagStep_next {s s' : State} {h : Nat} {i : Instr} {act : Tag → TagCall → Result State}
    (hn : s.tagStep h i act = .next s') :
    ∃ t c, tagInCall s h t c ∧ tagSelect h c = .op (encode i) ∧ i.wf = true ∧ act t c = .next s' := by
  obtain ⟨t, ht, hr, ha⟩ := State.onTag_next hn
  split at ha
  · cases ha
  · rename_i c hc
    split at ha
    · rename_i hs
      exact ⟨t, c, ⟨ht, hc, hr⟩, hs.1, hs.2, ha⟩
    · cases ha

theorem OutWindow.writeThen_of (w : OutWindow) {k : Nat} (x : Item) (act : OutWindow → Result State) (h : k < w.cap) :
    w.writeThen k x act = act { w with slots := Memory.write w.slots k x } := by
  simp [OutWindow.writeThen, OutWindow.write_of_lt w x h]

theorem OutWindow.writeThen_next {w : OutWindow} {k : Nat} {x : Item} {act : OutWindow → Result State} {s' : State}
    (hn : w.writeThen k x act = .next s') :
    k < w.cap ∧ act { w with slots := Memory.write w.slots k x } = .next s' := by
  unfold OutWindow.writeThen at hn
  split at hn
  · rename_i w' hw
    obtain ⟨hk, rfl⟩ := OutWindow.write_some hw
    exact ⟨hk, hn⟩
  · cases hn

end Sys2Proof.Machine
end

