-- ==== Sys2Proof/Laws/Exec.lean ====
section
/-! SUPPORT. One pair of lemmas per operation: `exec…_of` says where it completes and what it leaves, `exec…_next`
says what must have held when it answered a next state. -/

namespace Sys2Proof.Machine

/-! ## Selection by the item read -/

theorem padSelect_marker {h : Nat} {p : Pad} {c : PadCall} {ticks : BitVec 32} (ho : p.pendingPadding.toInt ≤ 0)
    (hc : c.o < c.out.cap) (hx : c.inp.items[c.i]? = some (markerItem ticks)) :
    padSelect h p c = .op (encode (.padMarker h ticks)) := padSelect_item ho hc hx

theorem padSelect_data {h : Nat} {p : Pad} {c : PadCall} {x : Item} (ho : p.pendingPadding.toInt ≤ 0)
    (hc : c.o < c.out.cap) (hx : c.inp.items[c.i]? = some x) :
    padSelect h p c = .op (encode (.padData h x)) := padSelect_item ho hc hx

/-- What a selected PAD operation says of the state. -/
theorem padSelect_op {h : Nat} {p : Pad} {c : PadCall} {q : Presented} (hs : padSelect h p c = .op q) :
    c.o < c.out.cap ∧
      (0 < p.pendingPadding.toInt ∧ q = .padOwed h ∨
        p.pendingPadding.toInt ≤ 0 ∧ ∃ x, c.inp.items[c.i]? = some x ∧ q = .padItem h x) := by
  rcases padSelect_cases h p c with ⟨ho, hc, he⟩ | ⟨ho, hc, x, hx, he⟩ | ⟨he, _⟩
  · rw [he] at hs
    exact ⟨hc, .inl ⟨ho, (Selected.op.inj hs).symm⟩⟩
  · rw [he] at hs
    exact ⟨hc, .inr ⟨ho, x, hx, (Selected.op.inj hs).symm⟩⟩
  · rw [he] at hs
    cases hs

/-- What a selected TAG operation says of the state. -/
theorem tagSelect_op {h : Nat} {c : TagCall} {q : Presented} (hs : tagSelect h c = .op q) :
    c.i < c.n ∧ ∃ x, c.inp.items[c.i]? = some x ∧ q = .tagItem h x := by
  rcases tagSelect_cases h c with ⟨hc, x, hx, he⟩ | ⟨_, _, he⟩ | ⟨_, he⟩
  · rw [he] at hs
    exact ⟨hc, x, hx, (Selected.op.inj hs).symm⟩
  · rw [he] at hs
    cases hs
  · rw [he] at hs
    cases hs

/-! ## PAD -/

theorem execPadCall_of {s : State} {h : Nat} {p : Pad} {inp : InWindow} {out : OutSpec} (hi : idlePad s h p)
    (hf : fits s inp out = true) :
    execPadCall h inp out s = .next (s.setPad h { p with call := some (PadCall.start inp out) }) := by
  obtain ⟨hp, hc, hr⟩ := hi
  simp [execPadCall, State.onPad_of hp hr, unlessBusy, Pad.busy, hc, State.ifFits_of hf]

theorem execPadCall_next {s s' : State} {h : Nat} {inp : InWindow} {out : OutSpec}
    (hn : execPadCall h inp out s = .next s') :
    ∃ p, idlePad s h p ∧ fits s inp out = true ∧
      s' = s.setPad h { p with call := some (PadCall.start inp out) } := by
  obtain ⟨p, hp, hr, ha⟩ := State.onPad_next hn
  obtain ⟨hb, ha⟩ := unlessBusy_next ha
  obtain ⟨hf, ha⟩ := State.ifFits_next ha
  exact ⟨p, ⟨hp, by simpa [Pad.busy] using hb, hr⟩, hf, (Host.Outcome.next.inj ha).symm⟩

theorem execPadDrain_of {s : State} {h : Nat} {p : Pad} {c : PadCall} (hc : padInCall s h p c)
    (ho : 0 < p.pendingPadding.toInt) (hcap : c.o < c.out.cap) :
    execPadDrain h s = .next (s.setPad h { p with
      pendingPadding := p.pendingPadding - 1#64
      call := some { c with
        o := c.o + 1
        out := { c.out with slots := Memory.write c.out.slots c.o filler } } }) := by
  rw [execPadDrain, State.padStep_of hc (padSelect_owes ho hcap) rfl, OutWindow.writeThen_of _ _ _ hcap]

theorem execPadDrain_next {s s' : State} {h : Nat} (hn : execPadDrain h s = .next s') :
    ∃ p c, padInCall s h p c ∧ 0 < p.pendingPadding.toInt ∧ c.o < c.out.cap ∧
      s' = s.setPad h { p with
        pendingPadding := p.pendingPadding - 1#64
        call := some { c with
          o := c.o + 1
          out := { c.out with slots := Memory.write c.out.slots c.o filler } } } := by
  obtain ⟨p, c, hc, hs, _, ha⟩ := State.padStep_next hn
  obtain ⟨hcap, ha⟩ := OutWindow.writeThen_next ha
  rcases padSelect_op hs with ⟨_, ⟨ho, _⟩ | ⟨_, _, _, hq⟩⟩
  · exact ⟨p, c, hc, ho, hcap, (Host.Outcome.next.inj ha).symm⟩
  · cases hq

theorem execPadMarker_of {s : State} {h : Nat} {ticks : BitVec 32} {p : Pad} {c : PadCall} (hc : padInCall s h p c)
    (ho : p.pendingPadding.toInt ≤ 0) (hcap : c.o < c.out.cap)
    (hx : c.inp.items[c.i]? = some (markerItem ticks)) :
    execPadMarker h ticks s = .next (s.setPad h { p.absorb ticks with call := some { c with i := c.i + 1 } }) := by
  rw [execPadMarker, State.padStep_of hc (padSelect_marker ho hcap hx) rfl]
  rfl

theorem execPadMarker_next {s s' : State} {h : Nat} {ticks : BitVec 32} (hn : execPadMarker h ticks s = .next s') :
    ∃ p c, padInCall s h p c ∧ p.pendingPadding.toInt ≤ 0 ∧ c.o < c.out.cap ∧
      c.inp.items[c.i]? = some (markerItem ticks) ∧
      s' = s.setPad h { p.absorb ticks with call := some { c with i := c.i + 1 } } := by
  obtain ⟨p, c, hc, hs, _, ha⟩ := State.padStep_next hn
  rcases padSelect_op hs with ⟨hcap, ⟨_, hq⟩ | ⟨ho, x, hx, hq⟩⟩
  · cases hq
  · cases hq
    exact ⟨p, c, hc, ho, hcap, hx, (Host.Outcome.next.inj ha).symm⟩

theorem execPadData_of {s : State} {h : Nat} {x : Item} {p : Pad} {c : PadCall} (hc : padInCall s h p c)
    (ho : p.pendingPadding.toInt ≤ 0) (hcap : c.o < c.out.cap) (hx : c.inp.items[c.i]? = some x)
    (hm : isMarker x = false) :
    execPadData h x s = .next (s.setPad h { p.count with
      call := some { c with
        i := c.i + 1
        o := c.o + 1
        out := { c.out with slots := Memory.write c.out.slots c.o x } } }) := by
  rw [execPadData, State.padStep_of hc (padSelect_data ho hcap hx) (by simp [Instr.wf, hm]),
    OutWindow.writeThen_of _ _ _ hcap]
  rfl

theorem execPadData_next {s s' : State} {h : Nat} {x : Item} (hn : execPadData h x s = .next s') :
    ∃ p c, padInCall s h p c ∧ p.pendingPadding.toInt ≤ 0 ∧ c.o < c.out.cap ∧ c.inp.items[c.i]? = some x ∧
      isMarker x = false ∧
      s' = s.setPad h { p.count with
        call := some { c with
          i := c.i + 1
          o := c.o + 1
          out := { c.out with slots := Memory.write c.out.slots c.o x } } } := by
  obtain ⟨p, c, hc, hs, hw, ha⟩ := State.padStep_next hn
  obtain ⟨hcap, ha⟩ := OutWindow.writeThen_next ha
  rcases padSelect_op hs with ⟨_, ⟨_, hq⟩ | ⟨ho, y, hy, hq⟩⟩
  · cases hq
  · cases hq
    exact ⟨p, c, hc, ho, hcap, hy, by simpa [Instr.wf] using hw, (Host.Outcome.next.inj ha).symm⟩

theorem execPadStatus_of {s : State} {h : Nat} {p : Pad} (hi : idlePad s h p) :
    execPadStatus h s =
      .next (s.reply (.padStatus h p.lastTimestamp p.itemsSinceTag p.pendingPadding p.sampleRate)) := by
  obtain ⟨hp, hc, hr⟩ := hi
  simp [execPadStatus, State.onPad_of hp hr, unlessBusy, Pad.busy, hc]

theorem execPadStatus_next {s s' : State} {h : Nat} (hn : execPadStatus h s = .next s') :
    ∃ p, idlePad s h p ∧
      s' = s.reply (.padStatus h p.lastTimestamp p.itemsSinceTag p.pendingPadding p.sampleRate) := by
  obtain ⟨p, hp, hr, ha⟩ := State.onPad_next hn
  obtain ⟨hb, ha⟩ := unlessBusy_next ha
  exact ⟨p, ⟨hp, by simpa [Pad.busy] using hb, hr⟩, (Host.Outcome.next.inj ha).symm⟩

theorem execPadConstruct_next {s s' : State} {rate : BitVec 64} (hn : execPadConstruct rate s = .next s') :
    legalRate rate = true ∧
      s' = { s with pads := s.pads ++ [Pad.fresh rate] }.reply (.padConstructed s.pads.length) := by
  unfold execPadConstruct at hn
  split at hn
  · exact ⟨‹_›, (Host.Outcome.next.inj hn).symm⟩
  · cases hn

/-! ## TAG -/

theorem execTagConstruct_next {s s' : State} (hn : execTagConstruct s = .next s') :
    s' = { s with tags := s.tags ++ [Tag.fresh] }.reply (.tagConstructed s.tags.length) :=
  (Host.Outcome.next.inj hn).symm

theorem execTagCall_of {s : State} {h : Nat} {t : Tag} {inp : InWindow} {out : OutSpec} (hi : idleTag s h t)
    (hf : fits s inp out = true) :
    execTagCall h inp out s = .next (s.setTag h { t with call := some (TagCall.start inp out) }) := by
  obtain ⟨ht, hc, hr⟩ := hi
  simp [execTagCall, State.onTag_of ht hr, unlessBusy, Tag.busy, hc, State.ifFits_of hf]

theorem execTagCall_next {s s' : State} {h : Nat} {inp : InWindow} {out : OutSpec}
    (hn : execTagCall h inp out s = .next s') :
    ∃ t, idleTag s h t ∧ fits s inp out = true ∧
      s' = s.setTag h { t with call := some (TagCall.start inp out) } := by
  obtain ⟨t, ht, hr, ha⟩ := State.onTag_next hn
  obtain ⟨hb, ha⟩ := unlessBusy_next ha
  obtain ⟨hf, ha⟩ := State.ifFits_next ha
  exact ⟨t, ⟨ht, by simpa [Tag.busy] using hb, hr⟩, hf, (Host.Outcome.next.inj ha).symm⟩

theorem tagSelect_item {h : Nat} {c : TagCall} {x : Item} (hi : c.i < c.n) (hx : c.inp.items[c.i]? = some x) :
    tagSelect h c = .op (.tagItem h x) := by
  simp [tagSelect, hi, hx]

theorem execTagMarker_of {s : State} {h : Nat} {ticks : BitVec 32} {t : Tag} {c : TagCall} (hc : tagInCall s h t c)
    (hi : c.i < c.n) (hx : c.inp.items[c.i]? = some (markerItem ticks)) :
    execTagMarker h ticks s = .next (s.setTag h { t with
      call := some { c with
        anns := c.anns ++ [{ offset := t.offset c, timeValue := tagTime ticks }]
        r := c.r + 1
        i := c.i + 1 } }) := by
  rw [execTagMarker, State.tagStep_of hc (tagSelect_item hi hx) rfl]

theorem execTagMarker_next {s s' : State} {h : Nat} {ticks : BitVec 32} (hn : execTagMarker h ticks s = .next s') :
    ∃ t c, tagInCall s h t c ∧ c.i < c.n ∧ c.inp.items[c.i]? = some (markerItem ticks) ∧
      s' = s.setTag h { t with
        call := some { c with
          anns := c.anns ++ [{ offset := t.offset c, timeValue := tagTime ticks }]
          r := c.r + 1
          i := c.i + 1 } } := by
  obtain ⟨t, c, hc, hs, _, ha⟩ := State.tagStep_next hn
  obtain ⟨hi, x, hx, hq⟩ := tagSelect_op hs
  cases hq
  exact ⟨t, c, hc, hi, hx, (Host.Outcome.next.inj ha).symm⟩

theorem execTagData_of {s : State} {h : Nat} {x : Item} {t : Tag} {c : TagCall} (hc : tagInCall s h t c)
    (hi : c.i < c.n) (hx : c.inp.items[c.i]? = some x) (hm : isMarker x = false) (hcap : c.i - c.r < c.out.cap) :
    execTagData h x s = .next (s.setTag h { t with
      call := some { c with
        i := c.i + 1
        out := { c.out with slots := Memory.write c.out.slots (c.i - c.r) x } } }) := by
  rw [execTagData, State.tagStep_of hc (tagSelect_item hi hx) (by simp [Instr.wf, hm]),
    OutWindow.writeThen_of _ _ _ hcap]

theorem execTagData_next {s s' : State} {h : Nat} {x : Item} (hn : execTagData h x s = .next s') :
    ∃ t c, tagInCall s h t c ∧ c.i < c.n ∧ c.inp.items[c.i]? = some x ∧ isMarker x = false ∧
      c.i - c.r < c.out.cap ∧
      s' = s.setTag h { t with
        call := some { c with
          i := c.i + 1
          out := { c.out with slots := Memory.write c.out.slots (c.i - c.r) x } } } := by
  obtain ⟨t, c, hc, hs, hw, ha⟩ := State.tagStep_next hn
  obtain ⟨hcap, ha⟩ := OutWindow.writeThen_next ha
  obtain ⟨hi, y, hy, hq⟩ := tagSelect_op hs
  cases hq
  exact ⟨t, c, hc, hi, hy, by simpa [Instr.wf] using hw, hcap, (Host.Outcome.next.inj ha).symm⟩

theorem execTagStatus_of {s : State} {h : Nat} {t : Tag} (hi : idleTag s h t) :
    execTagStatus h s = .next (s.reply (.tagStatus h t.itemsWrittenTotal)) := by
  obtain ⟨ht, hc, hr⟩ := hi
  simp [execTagStatus, State.onTag_of ht hr, unlessBusy, Tag.busy, hc]

theorem execTagStatus_next {s s' : State} {h : Nat} (hn : execTagStatus h s = .next s') :
    ∃ t, idleTag s h t ∧ s' = s.reply (.tagStatus h t.itemsWrittenTotal) := by
  obtain ⟨t, ht, hr, ha⟩ := State.onTag_next hn
  obtain ⟨hb, ha⟩ := unlessBusy_next ha
  exact ⟨t, ⟨ht, by simpa [Tag.busy] using hb, hr⟩, (Host.Outcome.next.inj ha).symm⟩

end Sys2Proof.Machine
end

