-- ==== Sys2Proof/Laws/Step.lean ====
section
/-! SUPPORT. What a step does: which move it takes, what a move of each kind does, and what must have held when it
answered a next state. -/

namespace Sys2Proof.Machine

theorem State.setPad_self {s : State} {h : Nat} {p q : Pad} (hp : s.pads[h]? = some p) :
    (s.setPad h q).pads[h]? = some q := by
  have := (List.getElem?_eq_some_iff.1 hp).1
  simp [this]

theorem State.setTag_self {s : State} {h : Nat} {t u : Tag} (ht : s.tags[h]? = some t) :
    (s.setTag h u).tags[h]? = some u := by
  have := (List.getElem?_eq_some_iff.1 ht).1
  simp [this]

/-- A scheduled move is the one taken, with the schedule moved on. -/
theorem step_scheduled {s : State} {t : Turn} {rest : List Turn} (hs : s.schedule = t :: rest) :
    step s = takeTurn t { s with schedule := rest } := by
  simp [step, State.nextTurn, hs, State.dropTurn]

/-- With nothing scheduled, the first running instance moves, or none does. -/
theorem step_unscheduled {s : State} (hs : s.schedule = []) :
    step s = match s.firstRunning with
      | some a => agentTurn a s
      | none => .next s := by
  cases h : s.firstRunning <;> simp [step, State.nextTurn, hs, h, takeTurn, State.dropTurn]
  rw [← hs]

theorem padTurn_op {s : State} {h : Nat} {p : Pad} {c : PadCall} {q : Presented} (hc : padInCall s h p c)
    (hs : padSelect h p c = .op q) : padTurn h s = exec (decode q) s := by
  obtain ⟨h1, h2, h3⟩ := hc
  simp only [padTurn, h1, h2, h3, hs]

theorem padTurn_finish {s : State} {h : Nat} {p : Pad} {c : PadCall} (hc : padInCall s h p c)
    (hs : padSelect h p c = .finish) : padTurn h s = .next (s.finishPad h p c) := by
  obtain ⟨h1, h2, h3⟩ := hc
  simp only [padTurn, h1, h2, h3, hs]

/-- An instance between calls holds its state. -/
theorem padTurn_idle {s : State} {h : Nat} {p : Pad} (hi : idlePad s h p) : padTurn h s = .next s := by
  obtain ⟨h1, h2, h3⟩ := hi
  simp only [padTurn, h1, h2, h3]

theorem tagTurn_op {s : State} {h : Nat} {t : Tag} {c : TagCall} {q : Presented} (hc : tagInCall s h t c)
    (hs : tagSelect h c = .op q) : tagTurn h s = exec (decode q) s := by
  obtain ⟨h1, h2, h3⟩ := hc
  simp only [tagTurn, h1, h2, h3, hs]

theorem tagTurn_finish {s : State} {h : Nat} {t : Tag} {c : TagCall} (hc : tagInCall s h t c)
    (hs : tagSelect h c = .finish) : tagTurn h s = .next (s.finishTag h t c) := by
  obtain ⟨h1, h2, h3⟩ := hc
  simp only [tagTurn, h1, h2, h3, hs]

/-- An instance between calls holds its state. -/
theorem tagTurn_idle {s : State} {h : Nat} {t : Tag} (hi : idleTag s h t) : tagTurn h s = .next s := by
  obtain ⟨h1, h2, h3⟩ := hi
  simp only [tagTurn, h1, h2, h3]

/-- A turn of PAD instance `h` that answers a next state took nothing, ran the selected operation, or returned. -/
theorem padTurn_next {s s' : State} {h : Nat} (hn : padTurn h s = .next s') :
    s' = s ∨ ∃ p c, padInCall s h p c ∧
      ((∃ q, padSelect h p c = .op q ∧ exec (decode q) s = .next s') ∨
        padSelect h p c = .finish ∧ s' = s.finishPad h p c) := by
  unfold padTurn at hn
  split at hn
  · exact .inl (Host.Outcome.next.inj hn).symm
  · rename_i p hp
    split at hn
    · cases hn
    · rename_i hr
      split at hn
      · exact .inl (Host.Outcome.next.inj hn).symm
      · rename_i c hc
        split at hn
        · rename_i q hq
          exact .inr ⟨p, c, ⟨hp, hc, hr⟩, .inl ⟨q, hq, hn⟩⟩
        · rename_i hq
          exact .inr ⟨p, c, ⟨hp, hc, hr⟩, .inr ⟨hq, (Host.Outcome.next.inj hn).symm⟩⟩
        · cases hn

/-- A turn of TAG instance `h` that answers a next state took nothing, ran the selected operation, or returned. -/
theorem tagTurn_next {s s' : State} {h : Nat} (hn : tagTurn h s = .next s') :
    s' = s ∨ ∃ t c, tagInCall s h t c ∧
      ((∃ q, tagSelect h c = .op q ∧ exec (decode q) s = .next s') ∨
        tagSelect h c = .finish ∧ s' = s.finishTag h t c) := by
  unfold tagTurn at hn
  split at hn
  · exact .inl (Host.Outcome.next.inj hn).symm
  · rename_i t ht
    split at hn
    · cases hn
    · rename_i hr
      split at hn
      · exact .inl (Host.Outcome.next.inj hn).symm
      · rename_i c hc
        split at hn
        · rename_i q hq
          exact .inr ⟨t, c, ⟨ht, hc, hr⟩, .inl ⟨q, hq, hn⟩⟩
        · rename_i hq
          exact .inr ⟨t, c, ⟨ht, hc, hr⟩, .inr ⟨hq, (Host.Outcome.next.inj hn).symm⟩⟩
        · cases hn

/-- A host write of `In` that answers a next state changed nothing, or one item of a running PAD call. -/
theorem writePadIn_next {s s' : State} {h k : Nat} {x : Item} (hn : writePadIn h k x s = .next s') :
    s' = s ∨ ∃ p c, padInCall s h p c ∧ k < c.inp.items.length ∧
      s' = s.setPad h { p with call := some { c with inp := replaceItem c.inp k x } } := by
  unfold writePadIn at hn
  split at hn
  · exact .inl (Host.Outcome.next.inj hn).symm
  · rename_i p hp
    split at hn
    · rename_i c hr hc
      split at hn
      · exact .inr ⟨p, c, ⟨hp, hc, hr⟩, ‹_›, (Host.Outcome.next.inj hn).symm⟩
      · cases hn
    · exact .inl (Host.Outcome.next.inj hn).symm

/-- A host write of `In` that answers a next state changed nothing, or one item of a running TAG call. -/
theorem writeTagIn_next {s s' : State} {h k : Nat} {x : Item} (hn : writeTagIn h k x s = .next s') :
    s' = s ∨ ∃ t c, tagInCall s h t c ∧ k < c.inp.items.length ∧
      s' = s.setTag h { t with call := some { c with inp := replaceItem c.inp k x } } := by
  unfold writeTagIn at hn
  split at hn
  · exact .inl (Host.Outcome.next.inj hn).symm
  · rename_i t ht
    split at hn
    · rename_i c hr hc
      split at hn
      · exact .inr ⟨t, c, ⟨ht, hc, hr⟩, ‹_›, (Host.Outcome.next.inj hn).symm⟩
      · cases hn
    · exact .inl (Host.Outcome.next.inj hn).symm

/-- A step that answers a next state changed only what its move changed, after the schedule moved on. -/
theorem step_next {s s' : State} (hn : step s = .next s') :
    s' = s ∨ ∃ t, s.nextTurn = some t ∧ takeTurn t s.dropTurn = .next s' := by
  unfold step at hn
  split at hn
  · exact .inr ⟨_, ‹_›, hn⟩
  · exact .inl (Host.Outcome.next.inj hn).symm

/-- Everything a move that answers a next state can do. -/
theorem takeTurn_next {t : Turn} {s s' : State} (hn : takeTurn t s = .next s') :
    s' = s ∨ (∃ i, exec i s = .next s') ∨
      (∃ h p c, padInCall s h p c ∧ padSelect h p c = .finish ∧ s' = s.finishPad h p c) ∨
      (∃ h t c, tagInCall s h t c ∧ tagSelect h c = .finish ∧ s' = s.finishTag h t c) ∨
      (∃ h k x p c, padInCall s h p c ∧ k < c.inp.items.length ∧
        s' = s.setPad h { p with call := some { c with inp := replaceItem c.inp k x } }) ∨
      ∃ h k x t c, tagInCall s h t c ∧ k < c.inp.items.length ∧
        s' = s.setTag h { t with call := some { c with inp := replaceItem c.inp k x } } := by
  cases t with
  | host r => exact .inr (.inl ⟨_, hn⟩)
  | agent a =>
    cases a with
    | pad h =>
      rcases padTurn_next hn with he | ⟨p, c, hc, ⟨q, hq, hx⟩ | ⟨hq, he⟩⟩
      · exact .inl he
      · exact .inr (.inl ⟨_, hx⟩)
      · exact .inr (.inr (.inl ⟨h, p, c, hc, hq, he⟩))
    | tag h =>
      rcases tagTurn_next hn with he | ⟨u, c, hc, ⟨q, hq, hx⟩ | ⟨hq, he⟩⟩
      · exact .inl he
      · exact .inr (.inl ⟨_, hx⟩)
      · exact .inr (.inr (.inr (.inl ⟨h, u, c, hc, hq, he⟩)))
  | hostWriteIn a k x =>
    cases a with
    | pad h =>
      rcases writePadIn_next hn with he | ⟨p, c, hc, hk, he⟩
      · exact .inl he
      · exact .inr (.inr (.inr (.inr (.inl ⟨h, k, x, p, c, hc, hk, he⟩))))
    | tag h =>
      rcases writeTagIn_next hn with he | ⟨u, c, hc, hk, he⟩
      · exact .inl he
      · exact .inr (.inr (.inr (.inr (.inr ⟨h, k, x, u, c, hc, hk, he⟩))))

end Sys2Proof.Machine
end

