-- ==== Sys2Proof/Laws/Effects.lean ====
section
/-! SUPPORT. Everything an operation that answers a next state can do, said once; and what that keeps. -/

namespace Sys2Proof.Machine

/-- A reply that is no call's return: what CODEC, DET and the status reads give. -/
def Reply.isRead : Reply → Bool
  | .decoded _ => true
  | .detected _ _ => true
  | .padStatus _ _ _ _ _ => true
  | .tagStatus _ _ => true
  | .padConstructed _ => false
  | .padReturned _ _ _ _ => false
  | .tagConstructed _ => false
  | .tagReturned _ _ _ _ _ => false

/-- The effects of the operations, one constructor each. -/
inductive Effect (s : State) : Instr → State → Prop where
  /-- CODEC, DET and the status reads only return a value. -/
  | read (i : Instr) (r : Reply) (hr : r.isRead = true) : Effect s i (s.reply r)
  | padConstruct (rate : BitVec 64) (hl : legalRate rate = true) :
      Effect s (.padConstruct rate)
        ({ s with pads := s.pads ++ [Pad.fresh rate] }.reply (.padConstructed s.pads.length))
  | tagConstruct :
      Effect s .tagConstruct ({ s with tags := s.tags ++ [Tag.fresh] }.reply (.tagConstructed s.tags.length))
  | padCall (h : Nat) (inp : InWindow) (out : OutSpec) (p : Pad) (hi : idlePad s h p) (hf : fits s inp out = true) :
      Effect s (.padCall h inp out) (s.setPad h { p with call := some (PadCall.start inp out) })
  | tagCall (h : Nat) (inp : InWindow) (out : OutSpec) (t : Tag) (hi : idleTag s h t) (hf : fits s inp out = true) :
      Effect s (.tagCall h inp out) (s.setTag h { t with call := some (TagCall.start inp out) })
  | padDrain (h : Nat) (p : Pad) (c : PadCall) (hc : padInCall s h p c) (ho : 0 < p.pendingPadding.toInt)
      (hcap : c.o < c.out.cap) :
      Effect s (.padDrain h) (s.setPad h { p with
        pendingPadding := p.pendingPadding - 1#64
        call := some { c with
          o := c.o + 1
          out := { c.out with slots := Memory.write c.out.slots c.o filler } } })
  | padMarker (h : Nat) (ticks : BitVec 32) (p : Pad) (c : PadCall) (hc : padInCall s h p c)
      (ho : p.pendingPadding.toInt ≤ 0) (hcap : c.o < c.out.cap)
      (hx : c.inp.items[c.i]? = some (markerItem ticks)) :
      Effect s (.padMarker h ticks) (s.setPad h { p.absorb ticks with call := some { c with i := c.i + 1 } })
  | padData (h : Nat) (x : Item) (p : Pad) (c : PadCall) (hc : padInCall s h p c) (ho : p.pendingPadding.toInt ≤ 0)
      (hcap : c.o < c.out.cap) (hx : c.inp.items[c.i]? = some x) (hm : isMarker x = false) :
      Effect s (.padData h x) (s.setPad h { p.count with
        call := some { c with
          i := c.i + 1
          o := c.o + 1
          out := { c.out with slots := Memory.write c.out.slots c.o x } } })
  | tagMarker (h : Nat) (ticks : BitVec 32) (t : Tag) (c : TagCall) (hc : tagInCall s h t c) (hi : c.i < c.n)
      (hx : c.inp.items[c.i]? = some (markerItem ticks)) :
      Effect s (.tagMarker h ticks) (s.setTag h { t with
        call := some { c with
          anns := c.anns ++ [{ offset := t.offset c, timeValue := tagTime ticks }]
          r := c.r + 1
          i := c.i + 1 } })
  | tagData (h : Nat) (x : Item) (t : Tag) (c : TagCall) (hc : tagInCall s h t c) (hi : c.i < c.n)
      (hx : c.inp.items[c.i]? = some x) (hm : isMarker x = false) (hcap : c.i - c.r < c.out.cap) :
      Effect s (.tagData h x) (s.setTag h { t with
        call := some { c with
          i := c.i + 1
          out := { c.out with slots := Memory.write c.out.slots (c.i - c.r) x } } })

/-- Every next state an operation answers is one of these effects. -/
theorem exec_effect {i : Instr} {s s' : State} (hn : exec i s = .next s') : Effect s i s' := by
  cases i with
  | decFft => exact (Host.Outcome.next.inj hn) ▸ .read _ _ rfl
  | decAvg => exact (Host.Outcome.next.inj hn) ▸ .read _ _ rfl
  | detMarker => exact (Host.Outcome.next.inj hn) ▸ .read _ _ rfl
  | detData => exact (Host.Outcome.next.inj hn) ▸ .read _ _ rfl
  | padConstruct rate =>
    obtain ⟨hl, rfl⟩ := execPadConstruct_next hn
    exact .padConstruct rate hl
  | padCall h inp out =>
    obtain ⟨p, hi, hf, rfl⟩ := execPadCall_next hn
    exact .padCall h inp out p hi hf
  | padDrain h =>
    obtain ⟨p, c, hc, ho, hcap, rfl⟩ := execPadDrain_next hn
    exact .padDrain h p c hc ho hcap
  | padMarker h ticks =>
    obtain ⟨p, c, hc, ho, hcap, hx, rfl⟩ := execPadMarker_next hn
    exact .padMarker h ticks p c hc ho hcap hx
  | padData h x =>
    obtain ⟨p, c, hc, ho, hcap, hx, hm, rfl⟩ := execPadData_next hn
    exact .padData h x p c hc ho hcap hx hm
  | padStatus h =>
    obtain ⟨p, _, rfl⟩ := execPadStatus_next hn
    exact .read _ _ rfl
  | tagConstruct =>
    obtain rfl := execTagConstruct_next hn
    exact .tagConstruct
  | tagCall h inp out =>
    obtain ⟨t, hi, hf, rfl⟩ := execTagCall_next hn
    exact .tagCall h inp out t hi hf
  | tagMarker h ticks =>
    obtain ⟨t, c, hc, hi, hx, rfl⟩ := execTagMarker_next hn
    exact .tagMarker h ticks t c hc hi hx
  | tagData h x =>
    obtain ⟨t, c, hc, hi, hx, hm, hcap, rfl⟩ := execTagData_next hn
    exact .tagData h x t c hc hi hx hm hcap
  | tagStatus h =>
    obtain ⟨t, _, rfl⟩ := execTagStatus_next hn
    exact .read _ _ rfl

/-- No operation changes `MAX_CALL` or the schedule. -/
theorem exec_keeps_schedule {i : Instr} {s s' : State} (hn : exec i s = .next s') :
    s'.schedule = s.schedule ∧ s'.maxCall = s.maxCall := by
  cases exec_effect hn <;> exact ⟨rfl, rfl⟩

/-- A window that holds its produced slots still does after the next one is written. -/
theorem windowOk_write {w : OutWindow} {n : Nat} {x : Item} (h : windowOk w n) (hn : n < w.cap)
    (hx : isMarker x = false) : windowOk { w with slots := Memory.write w.slots n x } (n + 1) := by
  obtain ⟨_, hkeys, hdata⟩ := h
  rw [windowOk, Memory.write_next _ _ _ hkeys]
  refine ⟨hn, by simp [hkeys, List.range_succ], fun kx hk => ?_⟩
  rcases List.mem_append.1 hk with hk | hk
  · exact hdata _ hk
  · rw [List.mem_singleton.1 hk]
    exact hx

/-- A window that holds its produced slots is in the canonical form. -/
theorem windowOk_wf {w : OutWindow} {n : Nat} (h : windowOk w n) : Memory.wf w.slots = true :=
  Memory.wf_of_range w.slots 0 n (by rw [h.2.1, List.range_eq_range'])

theorem windowOk_open (out : OutSpec) : windowOk (openWindow out) 0 := by
  simp [windowOk]

/-- What holds of every entry and of a new one holds after the new one is put in. -/
theorem forall_mem_set {α : Type} {P : α → Prop} {l : List α} {k : Nat} {a : α} (h : ∀ x ∈ l, P x) (ha : P a) :
    ∀ x ∈ l.set k a, P x := by
  intro x hx
  rcases List.mem_or_eq_of_mem_set hx with h1 | h1
  · exact h x h1
  · exact h1 ▸ ha

theorem of_getElem? {α : Type} {P : α → Prop} {l : List α} {k : Nat} {a : α} (h : ∀ x ∈ l, P x)
    (ha : l[k]? = some a) : P a :=
  h a (List.mem_of_getElem? ha)

end Sys2Proof.Machine
end

