-- ==== Sys2Proof/Laws/Float.lean ====
section
/-! SUPPORT. The rounding to a whole number: how near it is, and that it is monotone. -/

namespace Sys2Proof.Machine

/-- What the rounded quotient is: the floor or one above it, according to the remainder. -/
theorem divNearestEven_cases (num den : Nat) :
    (divNearestEven num den = num / den + 1 ∧
      (den < 2 * (num % den) ∨ 2 * (num % den) = den ∧ num / den % 2 = 1)) ∨
    (divNearestEven num den = num / den ∧
      ¬ (den < 2 * (num % den) ∨ 2 * (num % den) = den ∧ num / den % 2 = 1)) := by
  unfold divNearestEven
  dsimp only
  split
  · exact .inl ⟨rfl, ‹_›⟩
  · exact .inr ⟨rfl, ‹_›⟩

/-- The rounded quotient is within half a unit of the exact one, and even where it is exactly half a unit away. -/
theorem divNearestEven_near (num den : Nat) (hd : 0 < den) :
    2 * num ≤ 2 * (divNearestEven num den * den) + den ∧ 2 * (divNearestEven num den * den) ≤ 2 * num + den ∧
      ((2 * num = 2 * (divNearestEven num den * den) + den ∨ 2 * (divNearestEven num den * den) = 2 * num + den) →
        divNearestEven num den % 2 = 0) := by
  have hm := Nat.mod_lt num hd
  have he : num / den * den + num % den = num := by rw [Nat.mul_comm]; exact Nat.div_add_mod num den
  rcases divNearestEven_cases num den with ⟨h, hr⟩ | ⟨h, hr⟩
  · rw [h, Nat.add_mul, Nat.one_mul]
    refine ⟨by omega, by omega, fun ht => by omega⟩
  · rw [h]
    refine ⟨by omega, by omega, fun ht => by omega⟩

/-- Rounding is monotone. -/
theorem divNearestEven_mono {num num' : Nat} (den : Nat) (h : num ≤ num') :
    divNearestEven num den ≤ divNearestEven num' den := by
  have hq : num / den ≤ num' / den := Nat.div_le_div_right h
  have he : num / den * den + num % den = num := by rw [Nat.mul_comm]; exact Nat.div_add_mod num den
  have he' : num' / den * den + num' % den = num' := by rw [Nat.mul_comm]; exact Nat.div_add_mod num' den
  rcases Nat.lt_or_eq_of_le hq with hlt | heq
  · rcases divNearestEven_cases num den with ⟨h1, _⟩ | ⟨h1, _⟩ <;>
      rcases divNearestEven_cases num' den with ⟨h2, _⟩ | ⟨h2, _⟩ <;> omega
  · rw [heq] at he
    rcases divNearestEven_cases num den with ⟨h1, hr1⟩ | ⟨h1, hr1⟩ <;>
      rcases divNearestEven_cases num' den with ⟨h2, hr2⟩ | ⟨h2, hr2⟩ <;> omega

/-- An exact quotient is not changed. -/
theorem divNearestEven_exact (k den : Nat) (hd : 0 < den) : divNearestEven (k * den) den = k := by
  simp [divNearestEven, Nat.mul_div_cancel k hd]
  omega

/-- Rounding never passes a whole number: at most `k` if the quotient is at most `k`. -/
theorem divNearestEven_le {num den k : Nat} (hd : 0 < den) (h : num ≤ k * den) : divNearestEven num den ≤ k := by
  have := divNearestEven_mono den h
  rwa [divNearestEven_exact k den hd] at this

/-- Rounding never passes a whole number: at least `k` if the quotient is at least `k`. -/
theorem le_divNearestEven {num den k : Nat} (hd : 0 < den) (h : k * den ≤ num) : k ≤ divNearestEven num den := by
  have := divNearestEven_mono den h
  rwa [divNearestEven_exact k den hd] at this

/-- Round half away from zero of a value with no sign: half a unit is added, and the floor taken. -/
theorem roundHalfAway_fin (n : Nat) :
    roundHalfAway (.fin false n) = some (((2 * n + unitsPerOne) / (2 * unitsPerOne) : Nat) : Int) := rfl

end Sys2Proof.Machine
end

