-- ==== Sys2Proof/Laws/PerInstr.lean ====
section
/-! SUPPORT. Statements made for every operation, one lemma for each constructor. -/

namespace Sys2Proof.Laws.EncodedAtItsUnit

/-- An operation's encoding stands at the interface of the unit its mnemonic names (30_encoding.md R97). -/
def Statement (i : Instr) : Prop := (encode i).unit = i.unit

theorem decFft (timeLo : BitVec 16) (index : BitVec 11) (timeHi : BitVec 4) (imag real : BitVec 16) :
    Statement (.decFft timeLo index timeHi imag real) := rfl
theorem decAvg (timeLo : BitVec 16) (ignored : BitVec 11) (timeHi : BitVec 4) (magLo magHi : BitVec 16) :
    Statement (.decAvg timeLo ignored timeHi magLo magHi) := rfl
theorem detMarker (ticks : BitVec 32) : Statement (.detMarker ticks) := rfl
theorem detData (x : Item) : Statement (.detData x) := rfl
theorem padConstruct (rate : BitVec 64) : Statement (.padConstruct rate) := rfl
theorem padCall (h : Nat) (inp : InWindow) (out : OutSpec) : Statement (.padCall h inp out) := rfl
theorem padDrain (h : Nat) : Statement (.padDrain h) := rfl
theorem padMarker (h : Nat) (ticks : BitVec 32) : Statement (.padMarker h ticks) := rfl
theorem padData (h : Nat) (x : Item) : Statement (.padData h x) := rfl
theorem padStatus (h : Nat) : Statement (.padStatus h) := rfl
theorem tagConstruct : Statement .tagConstruct := rfl
theorem tagCall (h : Nat) (inp : InWindow) (out : OutSpec) : Statement (.tagCall h inp out) := rfl
theorem tagMarker (h : Nat) (ticks : BitVec 32) : Statement (.tagMarker h ticks) := rfl
theorem tagData (h : Nat) (x : Item) : Statement (.tagData h x) := rfl
theorem tagStatus (h : Nat) : Statement (.tagStatus h) := rfl

end Sys2Proof.Laws.EncodedAtItsUnit
end

