-- ==== Sys2Proof/Laws/Rounding.lean ====
section
/-! SUPPORT. The one rounding function of the binary64 arithmetic: its result is the nearest representable magnitude, it
depends on the quotient alone, and it is monotone. -/

namespace Sys2Proof.Machine

/-- A magnitude of more than 53 bits lies in the binade that `lostBits` names. -/
theorem lostBits_bounds {q : Nat} (h : 2 ^ 53 ≤ q) : 2 ^ (52 + lostBits q) ≤ q ∧ q < 2 ^ (53 + lostBits q) := by
  have h0 : q ≠ 0 := by omega
  have h1 : 53 ≤ Nat.log2 q := (Nat.le_log2 h0).2 h
  have e1 : 52 + lostBits q = Nat.log2 q := by unfold lostBits; omega
  have e2 : 53 + lostBits q = Nat.log2 q + 1 := by unfold lostBits; omega
  rw [e1, e2]
  exact ⟨Nat.log2_self_le h0, Nat.lt_log2_self⟩

/-- A magnitude of at most 53 bits loses none. -/
theorem lostBits_eq_zero {q : Nat} (h : q < 2 ^ 53) : lostBits q = 0 := by
  unfold lostBits
  by_cases h0 : q = 0
  · subst h0; simp
  · have := (Nat.log2_lt h0).2 h
    omega

/-- A whole number within half a unit of a quotient is the nearest one, and another is as near only at a tie. -/
theorem distance_le_of_near {num den k : Nat} (m : Nat) (hd : 0 < den) (h1 : 2 * num ≤ 2 * (k * den) + den)
    (h2 : 2 * (k * den) ≤ 2 * num + den) :
    distance num den k ≤ distance num den m ∧ (m ≠ k → distance num den m = distance num den k →
      (2 * num = 2 * (k * den) + den ∨ 2 * (k * den) = 2 * num + den)) := by
  unfold distance
  rcases Nat.lt_trichotomy m k with h | rfl | h
  · have : (m + 1) * den ≤ k * den := Nat.mul_le_mul_right _ h
    rw [Nat.add_mul, Nat.one_mul] at this
    constructor <;> omega
  · simp
  · have : (k + 1) * den ≤ m * den := Nat.mul_le_mul_right _ h
    rw [Nat.add_mul, Nat.one_mul] at this
    constructor <;> omega

/-- Distance in a coarser unit. -/
theorem distance_mul_unit (num den u m : Nat) : distance num den (m * u) = distance num (den * u) m := by
  unfold distance
  rw [show m * u * den = m * (den * u) by ring]

/-- A representable magnitude is a multiple of the unit `2^e`, or lies below every magnitude that needs that unit. -/
theorem representable_cases {n : Nat} (e : Nat) (hn : representable n) :
    (∃ m, n = m * 2 ^ e) ∨ 0 < e ∧ n < 2 ^ 52 * 2 ^ e := by
  obtain ⟨k, e', hk, rfl⟩ := hn
  by_cases h : e ≤ e'
  · exact .inl ⟨k * 2 ^ (e' - e), by rw [Nat.mul_assoc, ← Nat.pow_add]; congr 2; omega⟩
  · refine .inr ⟨by omega, ?_⟩
    have h1 : 2 ^ (e' + 1) ≤ 2 ^ e := Nat.pow_le_pow_right (by omega) (by omega)
    have h2 : k * 2 ^ e' < 2 ^ 53 * 2 ^ e' := Nat.mul_lt_mul_of_pos_right hk (Nat.two_pow_pos _)
    rw [Nat.pow_succ] at h1
    omega

/-- The significand that rounding picks at the unit of the quotient: at most `2^53`, and at least `2^52` where bits are
lost. -/
theorem significand_bounds {num den q e : Nat} (hd : 0 < den) (hq : num / den = q) (he : lostBits q = e) :
    divNearestEven num (den * 2 ^ e) ≤ 2 ^ 53 ∧
      (e = 0 ∨ 2 ^ 52 ≤ divNearestEven num (den * 2 ^ e) ∧ 2 ^ 52 * 2 ^ e * den ≤ num) := by
  have hpos : 0 < den * 2 ^ e := Nat.mul_pos hd (Nat.two_pow_pos e)
  have hfloor : q * den ≤ num := hq ▸ Nat.div_mul_le_self num den
  have hceil : num < (q + 1) * den := by
    rw [← hq, Nat.mul_comm]
    exact Nat.lt_mul_div_succ num hd
  by_cases h : 2 ^ 53 ≤ q
  · have hb := lostBits_bounds h
    rw [he, Nat.pow_add, Nat.pow_add] at hb
    have h1 : 2 ^ 52 * 2 ^ e * den ≤ num := (Nat.mul_le_mul_right den hb.1).trans hfloor
    have h2 : (q + 1) * den ≤ 2 ^ 53 * 2 ^ e * den := Nat.mul_le_mul_right den hb.2
    have e1 : 2 ^ 53 * (den * 2 ^ e) = 2 ^ 53 * 2 ^ e * den := by ring
    have e2 : 2 ^ 52 * (den * 2 ^ e) = 2 ^ 52 * 2 ^ e * den := by ring
    exact ⟨divNearestEven_le hpos (by omega), .inr ⟨le_divNearestEven hpos (by omega), h1⟩⟩
  · have h0 : e = 0 := he ▸ lostBits_eq_zero (by omega)
    subst h0
    have h2 : (q + 1) * den ≤ 2 ^ 53 * den := Nat.mul_le_mul_right den (by omega)
    exact ⟨divNearestEven_le hpos (by omega), .inl rfl⟩

/-- All that rounding does: the result is the representable magnitude nearest to the quotient, ties to even. -/
theorem roundUnits_nearestEven (num den : Nat) (hd : 0 < den) : NearestEven num den (roundUnits num den) := by
  unfold roundUnits
  generalize hq : num / den = q
  dsimp only
  generalize he : lostBits q = e
  have hpos : 0 < den * 2 ^ e := Nat.mul_pos hd (Nat.two_pow_pos e)
  obtain ⟨n1, n2, n3⟩ := divNearestEven_near num (den * 2 ^ e) hpos
  obtain ⟨k1, k2⟩ := significand_bounds hd hq he
  generalize divNearestEven num (den * 2 ^ e) = k at *
  have top : ¬ k < 2 ^ 53 → k * 2 ^ e = 2 ^ 52 * 2 ^ (e + 1) := by
    intro h
    rw [show k = 2 ^ 53 by omega, Nat.pow_succ 2 e]
    ring
  have multiple : ∀ m, distance num den (k * 2 ^ e) ≤ distance num den (m * 2 ^ e) := by
    intro m
    rw [distance_mul_unit, distance_mul_unit]
    exact (distance_le_of_near m hpos n1 n2).1
  have below : ∀ n, 0 < e → n < 2 ^ 52 * 2 ^ e → distance num den (k * 2 ^ e) < distance num den n := by
    intro n h0 hlt
    obtain rfl | ⟨_, h1⟩ := k2
    · omega
    refine Nat.lt_of_le_of_lt (multiple (2 ^ 52)) ?_
    have h2 : (n + 1) * den ≤ 2 ^ 52 * 2 ^ e * den := Nat.mul_le_mul_right _ hlt
    rw [Nat.add_mul, Nat.one_mul] at h2
    unfold distance
    omega
  refine ⟨?_, fun n hn => ?_, fun n hn hne heq => ?_⟩
  · by_cases h : k < 2 ^ 53
    · exact ⟨k, e, h, rfl⟩
    · exact ⟨2 ^ 52, e + 1, by decide, top h⟩
  · obtain ⟨m, rfl⟩ | ⟨h0, hlt⟩ := representable_cases e hn
    · exact multiple m
    · exact (below n h0 hlt).le
  · obtain ⟨m, rfl⟩ | ⟨h0, hlt⟩ := representable_cases e hn
    · have hmk : m ≠ k := by rintro rfl; exact hne rfl
      rw [distance_mul_unit, distance_mul_unit] at heq
      have heven := n3 ((distance_le_of_near m hpos n1 n2).2 hmk heq)
      by_cases h : k < 2 ^ 53
      · exact ⟨k, e, h, k2.imp id And.left, heven, rfl⟩
      · exact ⟨2 ^ 52, e + 1, by decide, .inr (le_refl _), by decide, top h⟩
    · have := below n h0 hlt
      omega

/-- A rounded quotient is at most twice the quotient. -/
theorem roundUnits_le_double (num den : Nat) (hd : 0 < den) : roundUnits num den * den ≤ 2 * num := by
  have := (roundUnits_nearestEven num den hd).2.1 0 ⟨0, 0, by decide, by simp⟩
  unfold distance at this
  omega

/-- Rounding is monotone in the numerator. -/
theorem roundUnits_mono {num num' : Nat} (den : Nat) (hd : 0 < den) (h : num ≤ num') :
    roundUnits num den ≤ roundUnits num' den := by
  rcases Nat.lt_or_ge (roundUnits num' den) (roundUnits num den) with hlt | hge
  · obtain ⟨r1, n1, _⟩ := roundUnits_nearestEven num den hd
    obtain ⟨r2, n2, _⟩ := roundUnits_nearestEven num' den hd
    have h1 := n1 _ r2
    have h2 := n2 _ r1
    have h3 : (roundUnits num' den + 1) * den ≤ roundUnits num den * den := Nat.mul_le_mul_right _ hlt
    rw [Nat.add_mul, Nat.one_mul] at h3
    unfold distance at h1 h2
    obtain rfl : num = num' := by omega
    exact le_refl _
  · exact hge

/-- Rounding depends on the quotient alone. -/
theorem roundUnits_scale (num den c : Nat) (hc : 0 < c) : roundUnits (num * c) (den * c) = roundUnits num den := by
  unfold roundUnits
  rw [Nat.mul_div_mul_right _ _ hc]
  dsimp only
  rw [show den * c * 2 ^ lostBits (num / den) = den * 2 ^ lostBits (num / den) * c by ring]
  congr 1
  unfold divNearestEven
  dsimp only
  rw [Nat.mul_div_mul_right _ _ hc, Nat.mul_mod_mul_right]
  generalize num % _ = r
  generalize den * 2 ^ _ = d
  have a1 : d * c < 2 * (r * c) ↔ d < 2 * r := by
    rw [show 2 * (r * c) = 2 * r * c by ring]
    exact Nat.mul_lt_mul_right hc
  have a2 : 2 * (r * c) = d * c ↔ 2 * r = d := by
    rw [show 2 * (r * c) = 2 * r * c by ring]
    exact Nat.mul_left_inj hc.ne'
  simp only [a1, a2]

/-- The value that an exponent field and a fraction field stand for, with the sign bit clear. -/
theorem f64OfBits_fields (e f : Nat) (he : e < 2047) (hf : f < 2 ^ 52) :
    f64OfBits (BitVec.ofNat 64 (e * 2 ^ 52 + f)) =
      .fin false (if e = 0 then f else (2 ^ 52 + f) * 2 ^ (e - 1)) := by
  have hlt : e * 2 ^ 52 + f < 2 ^ 63 := by omega
  have hnat : (BitVec.ofNat 64 (e * 2 ^ 52 + f)).toNat = e * 2 ^ 52 + f := by
    rw [BitVec.toNat_ofNat]
    exact Nat.mod_eq_of_lt (by omega)
  have hsign : (BitVec.ofNat 64 (e * 2 ^ 52 + f)).getLsbD 63 = false := by
    rw [BitVec.getLsbD, hnat]
    exact Nat.testBit_lt_two_pow hlt
  have hexp : ((BitVec.ofNat 64 (e * 2 ^ 52 + f)).extractLsb' 52 11).toNat = e := by
    rw [BitVec.extractLsb'_toNat, hnat, Nat.shiftRight_eq_div_pow, show (e * 2 ^ 52 + f) / 2 ^ 52 = e by omega]
    exact Nat.mod_eq_of_lt (by omega)
  have hfrac : ((BitVec.ofNat 64 (e * 2 ^ 52 + f)).extractLsb' 0 52).toNat = f := by
    rw [BitVec.extractLsb'_toNat, hnat, Nat.shiftRight_zero]
    omega
  unfold f64OfBits
  simp only [hsign, hexp, hfrac]
  rw [if_neg (by omega)]
  split <;> rfl

end Sys2Proof.Machine
end

