-- ==== Sys2Proof/Tests/Slice0.lean ====
section
/-! SUPPORT. Tests: expected results are the spec's own examples and vectors (95_test_vectors.md and the examples of
the rules), and one witness for each statement that has hypotheses. -/

namespace Sys2Proof.Tests

open Sys2Proof Sys2Proof.Machine

/-! ## Helpers -/

/-- The binary64 of 1e6, the rate of the spec's vectors. -/
def rate : BitVec 64 := 0x412E848000000000#64

/-- A PAD instance between calls. -/
def padOf (last since : BitVec 32) (pending : BitVec 64) : Pad :=
  { Pad.fresh rate with lastTimestamp := last, itemsSinceTag := since, pendingPadding := pending }

/-- A PAD call that has read nothing. -/
def callOf (items : List Item) (cap : Nat) : PadCall :=
  PadCall.start { items := items, base := none } { cap := cap, base := none }

/-- The machine with one PAD instance. -/
def withPad (p : Pad) : State := { State.reset with pads := [p] }

/-- The machine with one PAD instance in a call. -/
def padBusy (p : Pad) (items : List Item) (cap : Nat) : State := withPad { p with call := some (callOf items cap) }

/-- A TAG instance between calls. -/
def tagOf (total : BitVec 64) : Tag := { Tag.fresh with itemsWrittenTotal := total }

/-- A TAG call that has read nothing. -/
def tagCallOf (items : List Item) (cap : Nat) : TagCall :=
  TagCall.start { items := items, base := none } { cap := cap, base := none }

/-- The machine with one TAG instance. -/
def withTag (t : Tag) : State := { State.reset with tags := [t] }

/-- The machine with one TAG instance in a call. -/
def tagBusy (t : Tag) (items : List Item) (cap : Nat) : State :=
  withTag { t with call := some (tagCallOf items cap) }

/-- The outcome is a next state of which `f` holds. -/
def nextIs (r : Result State) (f : State → Bool) : Bool :=
  match r with
  | .next s => f s
  | .fault _ => false
  | .refused _ => false

/-- The outcome is this refusal. -/
def refusedAs (r : Result State) (why : Refusal) : Bool :=
  match r with
  | .next _ => false
  | .fault _ => false
  | .refused w => w == why

/-- The newest reply. -/
def newest (s : State) : Option Reply := s.replies.head?

/-! ## Well-formedness: an ill-formed term for each check -/

theorem test_wf_detData : (Instr.detData 0x000003E8FFFFFFFF#64).wf = false := by decide
theorem test_wf_padData : (Instr.padData 0 0x00000000FFFFFFFF#64).wf = false := by decide
theorem test_wf_tagData : (Instr.tagData 0 0xFFFFFFFFFFFFFFFF#64).wf = false := by decide

/-! ## Decoding (the words are 95_test_vectors.md's and the encodings of 30_encoding.md, written out) -/

/-- time_lo 0000000000000000, avg 0, fft_index 00000000000, time_hi 0011; imag 0x0001, real 0x0002. -/
theorem test_decode_decFft :
    decode (.host (.dec 0b00000000000000000000000000000011#32 0x00010002#32)) =
      .decFft 0#16 0#11 0x3#4 0x0001#16 0x0002#16 := by decide
/-- time_lo 0001001000110100, avg 1, ignored 11111111111, time_hi 0111. -/
theorem test_decode_decAvg :
    decode (.host (.dec 0b00010010001101001111111111110111#32 0x7FFF8000#32)) =
      .decAvg 0x1234#16 0x7FF#11 0x7#4 0x7FFF#16 0x8000#16 := by decide
theorem test_decode_detMarker : decode (.host (.det 0x00000000FFFFFFFF#64)) = .detMarker 0#32 := by decide
theorem test_decode_detData :
    decode (.host (.det 0x00000000FFFFFFFE#64)) = .detData 0x00000000FFFFFFFE#64 := by decide
theorem test_decode_padConstruct : decode (.host (.padConstruct rate)) = .padConstruct rate := by decide
theorem test_decode_padCall :
    decode (.host (.padCall 0 { items := [], base := none } { cap := 8, base := none })) =
      .padCall 0 { items := [], base := none } { cap := 8, base := none } := by decide
theorem test_decode_padDrain : decode (.padOwed 3) = .padDrain 3 := by decide
theorem test_decode_padMarker : decode (.padItem 1 0x000003E8FFFFFFFF#64) = .padMarker 1 1000#32 := by decide
theorem test_decode_padData : decode (.padItem 1 0x0000000000000000#64) = .padData 1 0#64 := by decide
theorem test_decode_padStatus : decode (.host (.padStatus 4)) = .padStatus 4 := by decide
theorem test_decode_tagConstruct : decode (.host .tagConstruct) = .tagConstruct := by decide
theorem test_decode_tagCall :
    decode (.host (.tagCall 0 { items := [], base := none } { cap := 5, base := none })) =
      .tagCall 0 { items := [], base := none } { cap := 5, base := none } := by decide
theorem test_decode_tagMarker : decode (.tagItem 0 0x00000007FFFFFFFF#64) = .tagMarker 0 7#32 := by decide
theorem test_decode_tagData :
    decode (.tagItem 0 0xFFFFFFFFFFFFFFFE#64) = .tagData 0 0xFFFFFFFFFFFFFFFE#64 := by decide
theorem test_decode_tagStatus : decode (.host (.tagStatus 2)) = .tagStatus 2 := by decide
theorem test_tableWord_item : decodeTableWord 64 0x000003E8FFFFFFFF = some (.detMarker 1000#32) := by decide
theorem test_tableWord_none : decodeTableWord 16 0 = none := by decide
/-- 40_codec.md R124: a word left over is rejected by name. -/
theorem test_stream_loneWord : (decodeStream [0#32, 0#32, 0#32]).isOk = false := by decide

/-! ## Binary64: 95_test_vectors.md, gap_items and tag_time -/

theorem test_gap_rows :
    [gapItems 0#32 rate, gapItems 1#32 rate, gapItems 3#32 rate, gapItems 32#32 rate,
      gapItems 10#32 0x413E848000000000#64, gapItems 1000#32 0#64, gapItems 0xFFFFFFFF#32 rate] =
    [0#64, 10#64, 31#64, 328#64, 205#64, 0#64, 43980465101#64] := by decide +kernel
/-- The exact ties 0.5, 1.5 and 2.5. -/
theorem test_gap_ties :
    [gapItems 25#32 0x409E848000000000#64, gapItems 25#32 0x40B6E36000000000#64,
      gapItems 25#32 0x40C312D000000000#64] = [1#64, 2#64, 3#64] := by decide +kernel
/-- `SR_MAX`. -/
theorem test_gap_largest : gapItems 0xFFFFFFFF#32 srMaxBits = 8796093020160001024#64 := by decide +kernel
/-- 71.68, 10250.24 and 43980465100.8. -/
theorem test_tagTime_rows :
    [tagTime 0#32, tagTime 7#32, tagTime 1001#32, tagTime 0xFFFFFFFF#32] =
      [0#64, 0x4051EB851EB851EC#64, 0x40C4051EB851EB85#64, 0x42247AE14799999A#64] := by decide +kernel

/-! ## Operations -/

/-- L2: word0 0xABCD7FF5, word1 0x8000FFFF. -/
theorem test_decFft :
    nextIs (exec (decode (.host (.dec 0xABCD7FF5#32 0x8000FFFF#32))) State.reset) (fun s =>
      match newest s with
      | some (.decoded p) => p.record == .fftBin 0x5ABCD#32 2047#16 (-1) (-32768)
      | _ => false) = true := by decide
/-- L2: word0 0xFFFF800F, word1 0x12345678. -/
theorem test_decAvg :
    nextIs (exec (decode (.host (.dec 0xFFFF800F#32 0x12345678#32))) State.reset) (fun s =>
      match newest s with
      | some (.decoded p) => p.record == .average 0xFFFFF#32 0x56781234#32
      | _ => false) = true := by decide
theorem test_detMarker :
    nextIs (exec (.detMarker 1000#32) State.reset) (fun s => newest s == some (.detected true 1000#32)) = true := by
  decide
theorem test_detData :
    nextIs (exec (.detData 0xFFFFFFFF7FFFFFFF#64) State.reset) (fun s =>
      newest s == some (.detected false 0xFFFFFFFF#32)) = true := by decide
/-- R250: the rate 2.0e14 is legal, the next binary64 above it is not, and neither is a NaN. -/
theorem test_padConstruct_rates :
    [legalRate srMaxBits, legalRate 0x42E6BCC41E900001#64, legalRate 0x7FF8000000000000#64,
      legalRate 0xBFF0000000000000#64, legalRate 0x8000000000000000#64] =
    [true, false, false, false, true] := by decide +kernel
theorem test_padConstruct :
    nextIs (exec (.padConstruct rate) State.reset) (fun s => s.pads == [padOf 0#32 0#32 0#64]) = true := by
  decide +kernel
theorem test_padCall :
    nextIs (exec (.padCall 0 { items := [5#64], base := some 8 } { cap := 1, base := none })
      (withPad (padOf 0#32 0#32 0#64))) (fun s => (s.pads.map Pad.busy) == [true]) = true := by decide
theorem test_padCall_concurrent :
    refusedAs (exec (.padCall 0 { items := [], base := none } { cap := 1, base := none })
      (padBusy (padOf 0#32 0#32 0#64) [] 1)) .concurrentCall = true := by decide
/-- R154's example, one filler of the two owed. -/
theorem test_padDrain :
    nextIs (exec (.padDrain 0) (padBusy (padOf 1001#32 0#32 2#64) [] 8)) (fun s =>
      (s.pads.map fun p => (p.pendingPadding, p.itemsSinceTag)) == [(1#64, 0#32)]) = true := by decide
/-- R156's example: `M(1001)` after 1000 with two items gives 8. -/
theorem test_padMarker :
    nextIs (exec (.padMarker 0 1001#32) (padBusy (padOf 1000#32 2#32 0#64) [0x000003E9FFFFFFFF#64] 1)) (fun s =>
      (s.pads.map fun p => (p.lastTimestamp, p.itemsSinceTag, p.pendingPadding)) == [(1001#32, 0#32, 8#64)]) =
      true := by decide +kernel
/-- R166's example: a marker 1000 ticks before the last. -/
theorem test_padMarker_backward :
    nextIs (exec (.padMarker 0 1000#32) (padBusy (padOf 2000#32 0#32 0#64) [0x000003E8FFFFFFFF#64] 1)) (fun s =>
      (s.pads.map fun p => p.pendingPadding) == [43980454871#64]) = true := by decide +kernel
/-- L2, the counter's wrap. -/
theorem test_padData_wrap :
    nextIs (exec (.padData 0 7#64) (padBusy (padOf 0#32 0xFFFFFFFF#32 0#64) [7#64] 1)) (fun s =>
      (s.pads.map fun p => p.itemsSinceTag) == [0#32]) = true := by decide
theorem test_padData_notSelected :
    refusedAs (exec (.padData 0 7#64) (padBusy (padOf 0#32 0#32 1#64) [7#64] 1)) .notSelected = true := by decide
/-- R163: `pending_padding` raw and signed. -/
theorem test_padStatus :
    nextIs (exec (.padStatus 0) (withPad (padOf 500#32 1#32 (-2#64)))) (fun s =>
      newest s == some (.padStatus 0 500#32 1#32 0xFFFFFFFFFFFFFFFE#64 rate)) = true := by decide
theorem test_padStatus_notConstructed : refusedAs (exec (.padStatus 1) (withPad (padOf 0#32 0#32 0#64)))
    .notConstructed = true := by decide
theorem test_tagConstruct :
    nextIs (exec .tagConstruct State.reset) (fun s => s.tags == [tagOf 0#64]) = true := by decide
/-- R190: `N = min(IN_LEN, OUT_CAP)`. -/
theorem test_tagCall :
    nextIs (exec (.tagCall 0 { items := [5#64, 6#64, 7#64], base := none } { cap := 2, base := none })
      (withTag (tagOf 0#64))) (fun s => (s.tags.map fun t => t.call.map fun c => c.n) == [some 2]) = true := by decide
/-- R192's example: `(3, 71.68)`. -/
theorem test_tagMarker :
    nextIs (exec (.tagMarker 0 7#32) (tagBusy (tagOf 3#64) [0x00000007FFFFFFFF#64] 1)) (fun s =>
      (s.tags.map fun t => t.call.map fun c => (c.anns, c.r, c.i)) ==
        [some ([{ offset := 3#64, timeValue := 0x4051EB851EB851EC#64 }], 1, 1)]) = true := by decide +kernel
theorem test_tagData :
    nextIs (exec (.tagData 0 5#64) (tagBusy (tagOf 0#64) [5#64] 1)) (fun s =>
      (s.tags.map fun t => t.call.map fun c => c.out.slots) == [some [(0, 5#64)]]) = true := by decide
theorem test_tagStatus :
    nextIs (exec (.tagStatus 0) (withTag (tagOf 3#64))) (fun s => newest s == some (.tagStatus 0 3#64)) = true := by
  decide

/-! ## The step -/

/-- S2 with nothing to read: `(0, 0)`. -/
theorem test_step_padReturns :
    nextIs (step (padBusy (padOf 10#32 0#32 (-5#64)) [] 4)) (fun s =>
      newest s == some (.padReturned 0 0 0 { cap := 4, base := none, slots := [] }) &&
        (s.pads.map Pad.busy) == [false]) = true := by decide
theorem test_step_withFetchWord :
    nextIs (step (State.reset.withFetchWord 64 0x000003E8FFFFFFFF)) (fun s =>
      newest s == some (.detected true 1000#32)) = true := by decide
theorem test_step_hostWriteIn_outside :
    (match step { padBusy (padOf 0#32 0#32 0#64) [1#64] 1 with schedule := [.hostWriteIn (.pad 0) 1 2#64] } with
      | .fault .noSuchSlot => true
      | _ => false) = true := by decide
theorem test_step_hostWriteIn :
    nextIs (step { padBusy (padOf 0#32 0#32 0#64) [1#64] 1 with schedule := [.hostWriteIn (.pad 0) 0 2#64] }) (fun s =>
      (s.pads.map fun p => p.call.map fun c => c.inp.items) == [some [2#64]]) = true := by decide
theorem test_hostCells_little :
    (OutWindow.hostCells .little { cap := 1, base := some 16, slots := [(0, 0x0102030405060708#64)] }).take 2 =
      [(16, 0x08#8), (17, 0x07#8)] := by decide

/-! ## Witnesses: the hypotheses of each statement can be met -/

/-- An instance the witnesses use: it owes nothing. -/
def pIdle : Pad := padOf 1000#32 0#32 0#64
/-- One that owes two fillers. -/
def pOwes : Pad := padOf 1000#32 0#32 2#64
/-- A window of one marker and one data item. -/
def items2 : List Item := [0x000003E9FFFFFFFF#64, 5#64]
def inCall (p : Pad) (c : PadCall) : Pad := { p with call := some c }
def tagInCallOf (t : Tag) (c : TagCall) : Tag := { t with call := some c }

/-- Two data items are data items. -/
theorem data_pair (a b : Item) (ha : isMarker a = false) (hb : isMarker b = false) :
    ∀ x ∈ [a, b], isMarker x = false := by
  intro x hx
  rcases List.mem_cons.1 hx with rfl | hx
  · exact ha
  · exact List.mem_singleton.1 hx ▸ hb

theorem witness_DecodeOfEncodeIsTheOperation : (Instr.padData 0 0xFFFFFFFFFFFFFFFE#64).wf = true := by decide
theorem witness_WordStreamIsDecodedAsPairs :
    ([1#32, 2#32] : List Word).length = 2 * 1 ∧ ([1#32, 2#32] : List Word)[2 * 0]? = some 1#32 ∧
      ([1#32, 2#32] : List Word)[2 * 0 + 1]? = some 2#32 ∧ ([1#32] : List Word).length = 2 * 0 + 1 := by decide
theorem witness_DecFftGivesTheFftBinRecord : (0xABCD7FF5#32 : Word).getLsbD 15 = false := by decide
theorem witness_DecAvgGivesTheAverageRecord : (0x00008003#32 : Word).getLsbD 15 = true := by decide
theorem witness_AverageRecordIgnoresTheIndexBits :
    (0x1234FFF7#32 : Word).getLsbD 15 = true ∧ (0x1234FFF7#32 : Word) &&& 0xFFFF800F#32 = 0x12348007#32 &&& 0xFFFF800F#32 ∧
    exec (decode (.host (.dec 0x1234FFF7#32 0#32))) State.reset =
      .next (State.reset.reply (.decoded (codecPort true 0x1234#16 0x7FF#11 7#4 0#16 0#16))) ∧
    exec (decode (.host (.dec 0x12348007#32 0#32))) State.reset =
      .next (State.reset.reply (.decoded (codecPort true 0x1234#16 0#11 7#4 0#16 0#16))) :=
  ⟨by decide, by decide, rfl, rfl⟩
theorem witness_DetMarkerReportsTheTimestamp :
    (0xFFFFFFFFFFFFFFFF#64 : Item) &&& 0xFFFFFFFF#64 = 0xFFFFFFFF#64 := by decide
theorem witness_DetDataReportsNoMarker :
    (0x00000000FFFFFFFE#64 : Item) &&& 0xFFFFFFFF#64 ≠ 0xFFFFFFFF#64 := by decide
/-- Legal at the upper bound and at minus zero. -/
theorem witness_ConstructCreatesAFreshInstance_legal :
    (∃ neg n, f64OfBits srMaxBits = .fin neg n ∧ (neg = true → n = 0) ∧ n ≤ 200000000000000 * 2 ^ 1074) ∧
    (∃ neg n, f64OfBits 0x8000000000000000#64 = .fin neg n ∧ (neg = true → n = 0) ∧ n ≤ 200000000000000 * 2 ^ 1074) :=
  ⟨⟨false, 200000000000000 * 2 ^ 1074, by decide +kernel, fun h => absurd h (by decide), Nat.le_refl _⟩,
    ⟨true, 0, by decide, fun _ => rfl, Nat.zero_le _⟩⟩
/-- Not legal: a NaN. -/
theorem witness_ConstructCreatesAFreshInstance_illegal :
    ¬ ∃ neg n, f64OfBits 0x7FF8000000000000#64 = .fin neg n ∧ (neg = true → n = 0) ∧ n ≤ 200000000000000 * 2 ^ 1074 := by
  rintro ⟨neg, n, h, _⟩
  have hn : f64OfBits 0x7FF8000000000000#64 = .nan := by decide
  rw [hn] at h
  cases h
theorem witness_idlePad : idlePad (withPad pIdle) 0 pIdle := ⟨rfl, rfl, rfl⟩
/-- Between calls, and in one. -/
theorem witness_PadStatusReturnsTheRegisters :
    idlePad (withPad pOwes) 0 pOwes ∧
    padInCall (withPad (inCall pOwes (callOf [] 1))) 0 (inCall pOwes (callOf [] 1)) (callOf [] 1) :=
  ⟨⟨rfl, rfl, rfl⟩, ⟨rfl, rfl, rfl⟩⟩
/-- Between calls, and in one. -/
theorem witness_TagStatusReturnsTheRegister :
    idleTag (withTag (tagOf 3#64)) 0 (tagOf 3#64) ∧
    tagInCall (withTag (tagInCallOf (tagOf 3#64) (tagCallOf [] 1))) 0 (tagInCallOf (tagOf 3#64) (tagCallOf [] 1))
      (tagCallOf [] 1) :=
  ⟨⟨rfl, rfl, rfl⟩, ⟨rfl, rfl, rfl⟩⟩
/-- At the bound of `MAX_CALL`, with an aligned base. -/
theorem witness_PadCallStartsTheCall :
    idlePad { withPad pIdle with maxCall := some 2 } 0 pIdle ∧
    (∀ m, ({ withPad pIdle with maxCall := some 2 } : State).maxCall = some m → items2.length ≤ m ∧ 2 ≤ m) ∧
    (∀ a, (some 16 : Option Nat) = some a → a % 8 = 0) ∧ (∀ a, (none : Option Nat) = some a → a % 8 = 0) :=
  ⟨⟨rfl, rfl, rfl⟩, fun _ h => by cases h; decide, fun _ h => by cases h; rfl, nofun⟩
theorem witness_PadDrainWritesOneFiller :
    padInCall (withPad (inCall pOwes (callOf [] 1))) 0 (inCall pOwes (callOf [] 1)) (callOf [] 1) ∧
    0 < (inCall pOwes (callOf [] 1)).pendingPadding.toInt ∧ (callOf [] 1).o < (callOf [] 1).out.cap :=
  ⟨⟨rfl, rfl, rfl⟩, by decide, by decide⟩
theorem witness_PadDataCopiesTheItem :
    padInCall (withPad (inCall pIdle (callOf [5#64] 1))) 0 (inCall pIdle (callOf [5#64] 1)) (callOf [5#64] 1) ∧
    (inCall pIdle (callOf [5#64] 1)).pendingPadding.toInt ≤ 0 ∧ (callOf [5#64] 1).o < (callOf [5#64] 1).out.cap ∧
    (callOf [5#64] 1).inp.items[(callOf [5#64] 1).i]? = some 5#64 ∧ (5#64 : Item) &&& 0xFFFFFFFF#64 ≠ 0xFFFFFFFF#64 :=
  ⟨⟨rfl, rfl, rfl⟩, by decide, by decide, rfl, by decide⟩
theorem witness_PadMarkerComputesTheGap :
    padInCall (withPad (inCall pIdle (callOf items2 1))) 0 (inCall pIdle (callOf items2 1)) (callOf items2 1) ∧
    (inCall pIdle (callOf items2 1)).pendingPadding.toInt ≤ 0 ∧ (callOf items2 1).o < (callOf items2 1).out.cap ∧
    (callOf items2 1).inp.items[(callOf items2 1).i]? = some (1001#32 ++ 0xFFFFFFFF#32 : BitVec 64) :=
  ⟨⟨rfl, rfl, rfl⟩, by decide, by decide, by decide⟩
/-- A first marker, with the most data items before it that the counter holds. -/
theorem witness_FirstMarkerSeedsWithoutFiller :
    padInCall (withPad (inCall (padOf 0#32 0xFFFFFFFF#32 0#64) (callOf items2 1))) 0
      (inCall (padOf 0#32 0xFFFFFFFF#32 0#64) (callOf items2 1)) (callOf items2 1) ∧
    legalRate (inCall (padOf 0#32 0xFFFFFFFF#32 0#64) (callOf items2 1)).sampleRate = true ∧
    (inCall (padOf 0#32 0xFFFFFFFF#32 0#64) (callOf items2 1)).lastTimestamp = 0#32 ∧
    (inCall (padOf 0#32 0xFFFFFFFF#32 0#64) (callOf items2 1)).pendingPadding.toInt ≤ 0 ∧
    (callOf items2 1).o < (callOf items2 1).out.cap ∧
    (callOf items2 1).inp.items[(callOf items2 1).i]? = some (markerItem 1001#32) :=
  ⟨⟨rfl, rfl, rfl⟩, by decide +kernel, rfl, by decide, by decide, by decide⟩
/-- S1: a filler owed and the output full (capacity 0). -/
theorem witness_PadCallReturnsExactlyAtTheStops_S1 :
    padInCall { withPad (inCall pOwes (callOf items2 0)) with schedule := [.agent (.pad 0)] } 0
      (inCall pOwes (callOf items2 0)) (callOf items2 0) ∧
    ({ withPad (inCall pOwes (callOf items2 0)) with schedule := [.agent (.pad 0)] } : State).schedule =
      .agent (.pad 0) :: [] ∧
    (callOf items2 0).i ≤ (callOf items2 0).inp.items.length ∧ (callOf items2 0).o ≤ (callOf items2 0).out.cap ∧
    0 < (inCall pOwes (callOf items2 0)).pendingPadding.toInt ∧ (callOf items2 0).o = (callOf items2 0).out.cap :=
  ⟨⟨rfl, rfl, rfl⟩, rfl, by decide, by decide, by decide, rfl⟩
/-- S2: nothing owed and the input at its end. -/
theorem witness_PadCallReturnsExactlyAtTheStops_S2 :
    padInCall { withPad (inCall pIdle (callOf [] 1)) with schedule := [.agent (.pad 0)] } 0
      (inCall pIdle (callOf [] 1)) (callOf [] 1) ∧
    (callOf [] 1).i ≤ (callOf [] 1).inp.items.length ∧ (callOf [] 1).o ≤ (callOf [] 1).out.cap ∧
    (inCall pIdle (callOf [] 1)).pendingPadding.toInt ≤ 0 ∧ (callOf [] 1).i = (callOf [] 1).inp.items.length :=
  ⟨⟨rfl, rfl, rfl⟩, by decide, by decide, by decide, rfl⟩
/-- Neither stop: nothing owed, one item left and one slot free. -/
theorem witness_PadCallReturnsExactlyAtTheStops_none :
    padInCall { withPad (inCall pIdle (callOf [5#64] 1)) with schedule := [.agent (.pad 0)] } 0
      (inCall pIdle (callOf [5#64] 1)) (callOf [5#64] 1) ∧
    ¬ (0 < (inCall pIdle (callOf [5#64] 1)).pendingPadding.toInt ∧ (callOf [5#64] 1).o = (callOf [5#64] 1).out.cap ∨
      (inCall pIdle (callOf [5#64] 1)).pendingPadding.toInt ≤ 0 ∧
        ((callOf [5#64] 1).i = (callOf [5#64] 1).inp.items.length ∨ (callOf [5#64] 1).o = (callOf [5#64] 1).out.cap)) :=
  ⟨⟨rfl, rfl, rfl⟩, by decide⟩
/-- `1 * 1 = 1` and `1 / 1 = 1`. -/
theorem witness_MultiplicationAndDivisionRoundToNearestEven :
    f64Mul (.fin false unitsPerOne) (.fin true unitsPerOne) = .fin true unitsPerOne ∧ 0 < unitsPerOne ∧
    f64Div (.fin false unitsPerOne) (.fin false unitsPerOne) = .fin false unitsPerOne := by decide +kernel
/-- The largest finite binary64. -/
theorem witness_BinarySixtyFourBitsRoundTrip : f64OfBits 0x7FEFFFFFFFFFFFFF#64 ≠ .nan := by decide +kernel
/-- The largest legal rate. -/
theorem witness_GapOfALegalRateIsInRange : legalRate srMaxBits = true := by decide +kernel
theorem witness_PadCallIsTheStreamFunction :
    idlePad (withPad pOwes) 0 pOwes ∧
    fits (withPad pOwes) { items := items2, base := none } { cap := 3, base := some 8 } = true :=
  ⟨⟨rfl, rfl, rfl⟩, by decide⟩
theorem witness_PadCallReturnsWithinTheBound :
    padInCall (withPad (inCall pOwes (callOf items2 3))) 0 (inCall pOwes (callOf items2 3)) (callOf items2 3) ∧
    (callOf items2 3).i ≤ (callOf items2 3).inp.items.length ∧ (callOf items2 3).o ≤ (callOf items2 3).out.cap :=
  ⟨⟨rfl, rfl, rfl⟩, by decide, by decide⟩
/-- A window exactly filled. -/
theorem witness_DataOnlyStreamIsCopied :
    idlePad (withPad pIdle) 0 pIdle ∧
    fits (withPad pIdle) { items := [5#64, 0#64], base := none } { cap := 2, base := none } = true ∧
    pIdle.pendingPadding.toInt ≤ 0 ∧ (∀ x ∈ ([5#64, 0#64] : List Item), isMarker x = false) ∧
    ([5#64, 0#64] : List Item).length ≤ 2 :=
  ⟨⟨rfl, rfl, rfl⟩, by decide, by decide, data_pair 5#64 0#64 (by decide) (by decide), by decide⟩
theorem witness_SplitCallsGiveTheSameStream :
    idlePad (withPad pOwes) 0 pOwes ∧
    fits (withPad pOwes) { items := items2, base := none } { cap := 1 + 3, base := none } = true :=
  ⟨⟨rfl, rfl, rfl⟩, by decide⟩
theorem witness_CallsWriteAPrefixOfOneStream :
    idlePad (withPad pOwes) 0 pOwes ∧
    fits (withPad pOwes) { items := items2 ++ [6#64], base := none } { cap := 1 + 3, base := none } = true :=
  ⟨⟨rfl, rfl, rfl⟩, by decide⟩
/-- R156's example: one tick, two data items, eight fillers, and a window exactly filled. -/
theorem witness_GapLawBetweenTwoMarkers :
    idlePad (withPad pIdle) 0 pIdle ∧ legalRate pIdle.sampleRate = true ∧ pIdle.lastTimestamp ≠ 0#32 ∧
    pIdle.itemsSinceTag = 0#32 ∧ pIdle.pendingPadding.toInt ≤ 0 ∧
    (∀ x ∈ ([5#64, 6#64] : List Item), isMarker x = false) ∧ ([5#64, 6#64] : List Item).length < 2 ^ 32 ∧
    ([5#64, 6#64] : List Item).length < 10 ∧
    ([5#64, 6#64] : List Item).length +
      ((gapItems (1001#32 - pIdle.lastTimestamp) pIdle.sampleRate).toInt - ([5#64, 6#64] : List Item).length).toNat ≤ 10 ∧
    fits (withPad pIdle) { items := [5#64, 6#64] ++ [markerItem 1001#32], base := none }
      { cap := 10, base := none } = true :=
  ⟨⟨rfl, rfl, rfl⟩, by decide +kernel, by decide, rfl, by decide, data_pair 5#64 6#64 (by decide) (by decide),
    by decide, by decide, by decide +kernel, by decide⟩
theorem witness_ZeroCapacityCallDoesNothing :
    idlePad (withPad pOwes) 0 pOwes ∧
    fits (withPad pOwes) { items := items2, base := none } { cap := 0, base := none } = true :=
  ⟨⟨rfl, rfl, rfl⟩, by decide⟩
/-- Two fillers in two calls of capacity 1. -/
theorem witness_FlushDrainsWhatIsOwed :
    idlePad (withPad pOwes) 0 pOwes ∧ 1 ≤ 1 ∧
    fits (withPad pOwes) { items := [], base := none } { cap := 1, base := none } = true ∧
    pOwes.pendingPadding.toInt ≤ (2 : Nat) * (1 : Nat) :=
  ⟨⟨rfl, rfl, rfl⟩, by decide, by decide, by decide⟩
theorem witness_TagCallStartsTheCall :
    idleTag { withTag (tagOf 3#64) with maxCall := some 2 } 0 (tagOf 3#64) ∧
    (∀ m, ({ withTag (tagOf 3#64) with maxCall := some 2 } : State).maxCall = some m → items2.length ≤ m ∧ 2 ≤ m) ∧
    (∀ a, (some 8 : Option Nat) = some a → a % 8 = 0) ∧ (∀ a, (none : Option Nat) = some a → a % 8 = 0) :=
  ⟨⟨rfl, rfl, rfl⟩, fun _ h => by cases h; decide, fun _ h => by cases h; rfl, nofun⟩
theorem witness_TagDataCopiesToTheCompactedSlot :
    tagInCall (withTag (tagInCallOf (tagOf 3#64) (tagCallOf [5#64] 1))) 0
      (tagInCallOf (tagOf 3#64) (tagCallOf [5#64] 1)) (tagCallOf [5#64] 1) ∧
    (tagCallOf [5#64] 1).i < (tagCallOf [5#64] 1).n ∧ (tagCallOf [5#64] 1).n ≤ (tagCallOf [5#64] 1).out.cap ∧
    (tagCallOf [5#64] 1).inp.items[(tagCallOf [5#64] 1).i]? = some 5#64 ∧
    (5#64 : Item) &&& 0xFFFFFFFF#64 ≠ 0xFFFFFFFF#64 :=
  ⟨⟨rfl, rfl, rfl⟩, by decide, by decide, rfl, by decide⟩
/-- At the wrap of the offset. -/
theorem witness_TagMarkerEmitsTheAnnotation :
    tagInCall (withTag (tagInCallOf (tagOf 0xFFFFFFFFFFFFFFFF#64) (tagCallOf items2 2))) 0
      (tagInCallOf (tagOf 0xFFFFFFFFFFFFFFFF#64) (tagCallOf items2 2)) (tagCallOf items2 2) ∧
    (tagCallOf items2 2).i < (tagCallOf items2 2).n ∧ (tagCallOf items2 2).r ≤ (tagCallOf items2 2).i ∧
    (tagCallOf items2 2).inp.items[(tagCallOf items2 2).i]? = some (1001#32 ++ 0xFFFFFFFF#32 : BitVec 64) :=
  ⟨⟨rfl, rfl, rfl⟩, by decide, by decide, by decide⟩
theorem witness_TagCallReturnsAtTheEnd :
    tagInCall { withTag (tagInCallOf (tagOf 3#64) (tagCallOf items2 0)) with schedule := [.agent (.tag 0)] } 0
      (tagInCallOf (tagOf 3#64) (tagCallOf items2 0)) (tagCallOf items2 0) ∧
    ({ withTag (tagInCallOf (tagOf 3#64) (tagCallOf items2 0)) with schedule := [.agent (.tag 0)] } : State).schedule =
      .agent (.tag 0) :: [] ∧
    (tagCallOf items2 0).i = (tagCallOf items2 0).n :=
  ⟨⟨rfl, rfl, rfl⟩, rfl, by decide⟩
/-- More items than capacity, and the same for the statements about a whole TAG call. -/
theorem witness_TagCallIsTheStreamFunction :
    idleTag (withTag (tagOf 3#64)) 0 (tagOf 3#64) ∧
    fits (withTag (tagOf 3#64)) { items := items2, base := none } { cap := 1, base := none } = true :=
  ⟨⟨rfl, rfl, rfl⟩, by decide⟩
theorem witness_TagCallConservesItems :
    idleTag (withTag (tagOf 3#64)) 0 (tagOf 3#64) ∧
    fits (withTag (tagOf 3#64)) { items := items2, base := some 0 } { cap := 2, base := none } = true :=
  ⟨⟨rfl, rfl, rfl⟩, by decide⟩
theorem witness_AnnotationOffsetsCountDataItems :
    idleTag (withTag (tagOf 3#64)) 0 (tagOf 3#64) ∧
    fits (withTag (tagOf 3#64)) { items := [5#64] ++ markerItem 1#32 :: [] ++ markerItem 2#32 :: [6#64], base := none }
      { cap := 3, base := none } = true ∧ ([5#64] : List Item).length + ([] : List Item).length + 2 ≤ 3 :=
  ⟨⟨rfl, rfl, rfl⟩, by decide, by decide⟩
theorem witness_TagReadsOnlyTheBatch :
    idleTag (withTag (tagOf 3#64)) 0 (tagOf 3#64) ∧ items2.length = 2 ∧
    fits (withTag (tagOf 3#64)) { items := items2 ++ [7#64], base := none } { cap := 2, base := none } = true ∧
    fits (withTag (tagOf 3#64)) { items := items2 ++ [markerItem 9#32], base := none } { cap := 2, base := none } = true :=
  ⟨⟨rfl, rfl, rfl⟩, by decide, by decide, by decide⟩
theorem witness_TagSplitCallsGiveTheSameStream :
    idleTag (withTag (tagOf 3#64)) 0 (tagOf 3#64) ∧ items2.length ≤ 2 ∧ ([7#64] : List Item).length ≤ 1 ∧
    items2.length + ([7#64] : List Item).length ≤ 3 ∧
    fits (withTag (tagOf 3#64)) { items := items2 ++ [7#64], base := none } { cap := 3, base := none } = true ∧
    fits (withTag (tagOf 3#64)) { items := items2, base := none } { cap := 2, base := none } = true ∧
    fits (withTag (tagOf 3#64)) { items := [7#64], base := none } { cap := 1, base := none } = true :=
  ⟨⟨rfl, rfl, rfl⟩, by decide, by decide, by decide, by decide, by decide, by decide⟩
theorem witness_HostContractViolationsAreRefused :
    padInCall (withPad (inCall pIdle (callOf [] 1))) 0 (inCall pIdle (callOf [] 1)) (callOf [] 1) ∧
    tagInCall (withTag (tagInCallOf (tagOf 3#64) (tagCallOf [] 1))) 0 (tagInCallOf (tagOf 3#64) (tagCallOf [] 1))
      (tagCallOf [] 1) ∧
    (withPad pIdle).pads.length ≤ 1 ∧ (withTag (tagOf 3#64)).tags.length ≤ 1 :=
  ⟨⟨rfl, rfl, rfl⟩, ⟨rfl, rfl, rfl⟩, by decide, by decide⟩
/-- One above `MAX_CALL`. -/
theorem witness_HostContractViolationsAreRefused_size :
    ({ withPad pIdle with maxCall := some 1 } : State).maxCall = some 1 ∧ (1 < items2.length ∨ 1 < 1) ∧
    idlePad { withPad pIdle with maxCall := some 1 } 0 pIdle ∧
    idleTag { withTag (tagOf 3#64) with maxCall := some 1 } 0 (tagOf 3#64) :=
  ⟨rfl, by decide, ⟨rfl, rfl, rfl⟩, ⟨rfl, rfl, rfl⟩⟩
/-- A PAD and a TAG instance, both refused. -/
def bothRefused : State :=
  { State.reset with
    pads := [{ pIdle with refused := some .concurrentCall }]
    tags := [{ tagOf 3#64 with refused := some .concurrentCall }]
    schedule := [.host (.padStatus 0)] }
theorem witness_RefusedInstanceStaysRefused :
    (∃ s', stepOn bothRefused = .next s') ∧
    bothRefused.pads[0]? = some { pIdle with refused := some .concurrentCall } ∧
    bothRefused.tags[0]? = some { tagOf 3#64 with refused := some .concurrentCall } :=
  ⟨⟨_, rfl⟩, rfl, rfl⟩
theorem witness_ConcurrentCallMarksTheInstance_pad (r : Request)
    (_ : r = .padCall 0 { items := [], base := none } { cap := 1, base := none } ∨ r = .padStatus 0) :
    ({ withPad (inCall pIdle (callOf [] 1)) with schedule := [.host r] } : State).schedule = .host r :: [] ∧
    padInCall { withPad (inCall pIdle (callOf [] 1)) with schedule := [.host r] } 0
      (inCall pIdle (callOf [] 1)) (callOf [] 1) := ⟨rfl, rfl, rfl, rfl⟩
theorem witness_ConcurrentCallMarksTheInstance_tag (r : Request)
    (_ : r = .tagCall 0 { items := [], base := none } { cap := 1, base := none } ∨ r = .tagStatus 0) :
    ({ withTag (tagInCallOf (tagOf 3#64) (tagCallOf [5#64] 1)) with schedule := [.host r] } : State).schedule =
      .host r :: [] ∧
    tagInCall { withTag (tagInCallOf (tagOf 3#64) (tagCallOf [5#64] 1)) with schedule := [.host r] } 0
      (tagInCallOf (tagOf 3#64) (tagCallOf [5#64] 1)) (tagCallOf [5#64] 1) := ⟨rfl, rfl, rfl, rfl⟩
theorem witness_UnalignedWindowsAreRefused :
    12 % 8 ≠ 0 ∧ ((some 12 : Option Nat) = some 12 ∨ (none : Option Nat) = some 12) ∧
    (∀ m, (withPad pIdle).maxCall = some m → items2.length ≤ m ∧ 1 ≤ m) ∧ idlePad (withPad pIdle) 0 pIdle ∧
    idleTag (withTag (tagOf 3#64)) 0 (tagOf 3#64) :=
  ⟨by decide, .inl rfl, nofun, ⟨rfl, rfl, rfl⟩, ⟨rfl, rfl, rfl⟩⟩
theorem witness_StepRunsTheHostsRequest :
    (State.reset.withFetchWord 64 0).schedule = .host (.det 0#64) :: [] := rfl
/-- A filler owed. -/
theorem witness_StepRunsTheSelectedPadOperation_drain :
    padInCall { withPad (inCall pOwes (callOf items2 1)) with schedule := [.agent (.pad 0)] } 0
      (inCall pOwes (callOf items2 1)) (callOf items2 1) ∧
    (callOf items2 1).o < (callOf items2 1).out.cap ∧ 0 < (inCall pOwes (callOf items2 1)).pendingPadding.toInt :=
  ⟨⟨rfl, rfl, rfl⟩, by decide, by decide⟩
/-- A marker next. -/
theorem witness_StepRunsTheSelectedPadOperation_marker :
    padInCall { withPad (inCall pIdle (callOf items2 1)) with schedule := [.agent (.pad 0)] } 0
      (inCall pIdle (callOf items2 1)) (callOf items2 1) ∧
    (callOf items2 1).o < (callOf items2 1).out.cap ∧ (inCall pIdle (callOf items2 1)).pendingPadding.toInt ≤ 0 ∧
    (callOf items2 1).inp.items[(callOf items2 1).i]? = some 0x000003E9FFFFFFFF#64 ∧
    (0x000003E9FFFFFFFF#64 : Item) &&& 0xFFFFFFFF#64 = 0xFFFFFFFF#64 :=
  ⟨⟨rfl, rfl, rfl⟩, by decide, by decide, rfl, by decide⟩
/-- A data item next. -/
theorem witness_StepRunsTheSelectedPadOperation_data :
    padInCall { withPad (inCall pIdle (callOf [5#64] 1)) with schedule := [.agent (.pad 0)] } 0
      (inCall pIdle (callOf [5#64] 1)) (callOf [5#64] 1) ∧
    (callOf [5#64] 1).o < (callOf [5#64] 1).out.cap ∧
    (callOf [5#64] 1).inp.items[(callOf [5#64] 1).i]? = some 5#64 ∧
    (5#64 : Item) &&& 0xFFFFFFFF#64 ≠ 0xFFFFFFFF#64 :=
  ⟨⟨rfl, rfl, rfl⟩, by decide, rfl, by decide⟩
/-- A marker next, and a data item next. -/
theorem witness_StepRunsTheSelectedTagOperation :
    tagInCall { withTag (tagInCallOf (tagOf 3#64) (tagCallOf items2 2)) with schedule := [.agent (.tag 0)] } 0
      (tagInCallOf (tagOf 3#64) (tagCallOf items2 2)) (tagCallOf items2 2) ∧
    (tagCallOf items2 2).i < (tagCallOf items2 2).n ∧
    (tagCallOf items2 2).inp.items[(tagCallOf items2 2).i]? = some 0x000003E9FFFFFFFF#64 ∧
    (0x000003E9FFFFFFFF#64 : Item) &&& 0xFFFFFFFF#64 = 0xFFFFFFFF#64 ∧
    (tagCallOf [5#64] 1).inp.items[(tagCallOf [5#64] 1).i]? = some 5#64 ∧
    (5#64 : Item) &&& 0xFFFFFFFF#64 ≠ 0xFFFFFFFF#64 :=
  ⟨⟨rfl, rfl, rfl⟩, by decide, rfl, by decide, rfl, by decide⟩
theorem witness_NoStepIsRefusedAsNotSelected :
    (∀ p ∈ bothRefused.pads, p.refused ≠ some .notSelected) ∧
    (∀ t ∈ bothRefused.tags, t.refused ≠ some .notSelected) := by decide
theorem witness_BetweenCallsTheStateIsHeld :
    (withPad pOwes).schedule = [] ∧ (∀ p ∈ (withPad pOwes).pads, p.call = none) ∧
    (∀ t ∈ (withPad pOwes).tags, t.call = none) := by decide

/-- A PAD instance of the spec's vectors, in a call and about to drain. -/
def running : State := padBusy pOwes items2 3

/-- The invariant, the canonical form and the range hold in a state that takes a step. -/
theorem witness_EveryStepKeepsTheInvariant : running.Inv ∧ ∃ s', step running = .next s' := by
  refine ⟨⟨fun p hp => ?_, nofun, nofun⟩, _, rfl⟩
  obtain rfl := List.mem_singleton.1 hp
  refine ⟨(by decide +kernel : legalRate rate = true), fun c hc => ?_⟩
  cases hc
  exact ⟨by decide, by decide, rfl, nofun⟩
theorem witness_EveryStepKeepsTheCanonicalForm : running.memWf ∧ ∃ s', step running = .next s' := by
  refine ⟨⟨fun p hp c hc => ?_, nofun⟩, _, rfl⟩
  obtain rfl := List.mem_singleton.1 hp
  cases hc
  rfl
theorem witness_EveryStepKeepsPendingPaddingInRange :
    (∀ p ∈ running.pads, p.inRange) ∧ ∃ s', step running = .next s' := by
  refine ⟨fun p hp => ?_, _, rfl⟩
  obtain rfl := List.mem_singleton.1 hp
  exact ⟨(by decide +kernel : legalRate rate = true), by decide, by decide⟩
theorem witness_SampleRateIsFixedForLife :
    ∃ s' p, step running = .next s' ∧ running.pads[0]? = some p := ⟨_, _, rfl, rfl⟩
theorem witness_PadRegistersAreWrittenByTheirOperations :
    ∃ s' p, exec (.padDrain 0) running = .next s' ∧ running.pads[0]? = some p := ⟨_, _, rfl, rfl⟩
theorem witness_TagRegisterIsWrittenOnlyAtTheEndOfACall_exec :
    ∃ s' t, exec (.tagData 0 5#64) (tagBusy (tagOf 3#64) [5#64] 1) = .next s' ∧
      (tagBusy (tagOf 3#64) [5#64] 1).tags[0]? = some t := ⟨_, _, rfl, rfl⟩
/-- The end of a call that wrote one item, with nothing scheduled: the total goes from 3 to 4. -/
theorem witness_TagRegisterIsWrittenOnlyAtTheEndOfACall_step :
    ∃ s' t t', step (withTag (tagInCallOf (tagOf 3#64) { tagCallOf [5#64] 1 with i := 1 })) = .next s' ∧
      (withTag (tagInCallOf (tagOf 3#64) { tagCallOf [5#64] 1 with i := 1 })).tags[0]? = some t ∧
      s'.tags[0]? = some t' ∧ t.itemsWrittenTotal = 3#64 ∧ t'.itemsWrittenTotal = 4#64 :=
  ⟨_, _, _, rfl, rfl, rfl, rfl, by decide⟩
/-- Two PAD instances in a call: the step of the first leaves the second. -/
def two : State :=
  { State.reset with
    pads := [inCall pOwes (callOf items2 3), inCall pIdle (callOf [5#64] 1)]
    tags := [tagOf 3#64]
    schedule := [.agent (.pad 0)] }
theorem witness_OtherInstancesAreUntouched :
    two.nextTurn = some (.agent (.pad 0)) ∧ (∃ s', step two = .next s') ∧
    (Turn.agent (.pad 0)).agent? ≠ some (.pad 1) ∧ two.pads[1]? = some (inCall pIdle (callOf [5#64] 1)) ∧
    (Turn.agent (.pad 0)).agent? ≠ some (.tag 0) ∧ two.tags[0]? = some (tagOf 3#64) :=
  ⟨rfl, ⟨_, rfl⟩, by decide, rfl, by decide, rfl⟩
/-- The same move, when nothing is scheduled. -/
theorem witness_OtherInstancesAreUntouched_unscheduled :
    ({ two with schedule := [] } : State).nextTurn = some (.agent (.pad 0)) ∧
    ∃ s', step { two with schedule := [] } = .next s' := ⟨by decide, _, rfl⟩
theorem witness_StepsOfTwoInstancesCommute :
    AgentId.pad 0 ≠ .pad 1 ∧ ∃ s1, runTurns [.agent (.pad 0), .agent (.pad 1)] two = .next s1 :=
  ⟨by decide, _, rfl⟩

end Sys2Proof.Tests
end

section
/-! The obligations on the binary64 arithmetic (00_scope.md R10): rounding of products and quotients, rounding to an
integer, and the round trip of the bits. -/

namespace Sys2Proof.Machine

/-! ## Products and quotients -/

/-- A rounded value that is finite has the sign asked for, and the nearest representable magnitude. -/
theorem roundF64_eq_fin {neg u : Bool} {num den r : Nat} (hd : 0 < den) (h : roundF64 neg num den = .fin u r) :
    u = neg ∧ NearestEven num den r := by
  unfold roundF64 at h
  split at h
  · obtain ⟨rfl, rfl⟩ := F64.fin.inj h
    exact ⟨rfl, roundUnits_nearestEven num den hd⟩
  · cases h

theorem unitsPerOne_pos : 0 < unitsPerOne := pow_pos Nat.two_pos 1074

/-- A product of finite values is rounded once. -/
theorem f64Mul_fin (s t : Bool) (a b : Nat) :
    f64Mul (.fin s a) (.fin t b) = roundF64 (s != t) (a * b) unitsPerOne := rfl

/-- A quotient of finite values is rounded once, where the divisor is not zero. -/
theorem f64Div_fin (s t : Bool) (a : Nat) {b : Nat} (hb : 0 < b) :
    f64Div (.fin s a) (.fin t b) = roundF64 (s != t) (a * unitsPerOne) b := if_neg hb.ne'

/-- Settles O22: both operations are one `roundF64` of the exact result, whose units `roundUnits_nearestEven` pins. -/
theorem multiplicationAndDivisionRoundToNearestEven : Obligations.MultiplicationAndDivisionRoundToNearestEven := by
  intro s t u a b r
  constructor
  · intro h
    rw [f64Mul_fin] at h
    exact roundF64_eq_fin unitsPerOne_pos h
  · intro hb h
    rw [f64Div_fin s t a hb] at h
    exact roundF64_eq_fin hb h

/-! ## Rounding to an integer -/

/-- Adding half a divisor and taking the floor gives the nearest whole number, the larger one at a tie. -/
theorem floor_add_half_bounds (n : Nat) {d : Nat} (hd : 0 < d) :
    2 * n < 2 * ((2 * n + d) / (2 * d)) * d + d ∧ 2 * ((2 * n + d) / (2 * d)) * d ≤ 2 * n + d := by
  have hfloor := Nat.div_mul_le_self (2 * n + d) (2 * d)
  have hceil := Nat.lt_div_mul_add (a := 2 * n + d) (b := 2 * d) (by omega)
  generalize (2 * n + d) / (2 * d) = k at *
  rw [show k * (2 * d) = 2 * k * d by ring] at hfloor hceil
  omega

/-- Settles O23: the magnitude is the floor of the value plus one half, and the sign is kept. -/
theorem roundHalfAwayIsNearest : Obligations.RoundHalfAwayIsNearest := fun _ n =>
  ⟨(2 * n + unitsPerOne) / (2 * unitsPerOne), rfl, floor_add_half_bounds n unitsPerOne_pos⟩

/-! ## The bits of a value -/

/-- A magnitude of at most 53 bits is packed as it is: its leading bit, if it is the 53rd, makes the exponent 1. -/
theorem packUnits_of_lt {n : Nat} (h : n < 2 ^ 53) : packUnits n = n := by
  simp [packUnits, lostBits_eq_zero h]

/-- A normal magnitude loses the bits that its exponent counts. -/
theorem lostBits_normal (f e : Nat) (hf : f < 2 ^ 52) : lostBits ((2 ^ 52 + f) * 2 ^ e) = e := by
  have hlog : Nat.log2 ((2 ^ 52 + f) * 2 ^ e) = 52 + e := by
    rw [Nat.log2_eq_iff (by positivity)]
    rw [Nat.pow_add, show 52 + e + 1 = 53 + e by omega, Nat.pow_add]
    exact ⟨Nat.mul_le_mul_right _ (by omega), Nat.mul_lt_mul_of_pos_right (by omega) (Nat.two_pow_pos e)⟩
  rw [lostBits, hlog, Nat.add_sub_cancel_left]

/-- A normal magnitude is packed into its exponent field and its fraction field. -/
theorem packUnits_normal (f e : Nat) (hf : f < 2 ^ 52) :
    packUnits ((2 ^ 52 + f) * 2 ^ e) = (e + 1) * 2 ^ 52 + f := by
  rw [packUnits, lostBits_normal f e hf, Nat.mul_div_cancel _ (Nat.two_pow_pos e)]
  ring

/-- 64 bits are their sign above their exponent field and their fraction field. -/
theorem withSign_fields (b : BitVec 64) :
    withSign (b.getLsbD 63) ((b.extractLsb' 52 11).toNat * 2 ^ 52 + (b.extractLsb' 0 52).toNat) = b := by
  have hlt := b.isLt
  have hexp : (b.extractLsb' 52 11).toNat = b.toNat / 2 ^ 52 % 2 ^ 11 := by
    rw [BitVec.extractLsb'_toNat, Nat.shiftRight_eq_div_pow]
  have hfrac : (b.extractLsb' 0 52).toNat = b.toNat % 2 ^ 52 := by
    rw [BitVec.extractLsb'_toNat, Nat.shiftRight_zero]
  have hsign : b.getLsbD 63 = decide (b.toNat / 2 ^ 63 % 2 = 1) := Nat.testBit_eq_decide_div_mod_eq
  apply BitVec.eq_of_toNat_eq
  rw [withSign, BitVec.toNat_ofNat, hexp, hfrac, hsign]
  by_cases h : b.toNat / 2 ^ 63 % 2 = 1
  · rw [if_pos (by simpa using h)]
    omega
  · rw [if_neg (by simpa using h)]
    omega

/-- What 64 bits stand for, by the exponent field: an infinity or a NaN, a subnormal value, or a normal one. -/
theorem f64OfBits_cases (b : BitVec 64) :
    ((b.extractLsb' 52 11).toNat = 2047 ∧ (b.extractLsb' 0 52).toNat = 0 ∧ f64OfBits b = .inf (b.getLsbD 63)) ∨
    f64OfBits b = .nan ∨
    ((b.extractLsb' 52 11).toNat = 0 ∧ f64OfBits b = .fin (b.getLsbD 63) (b.extractLsb' 0 52).toNat) ∨
    (0 < (b.extractLsb' 52 11).toNat ∧ f64OfBits b =
      .fin (b.getLsbD 63) ((2 ^ 52 + (b.extractLsb' 0 52).toNat) * 2 ^ ((b.extractLsb' 52 11).toNat - 1))) := by
  unfold f64OfBits
  dsimp only
  split
  · split
    · exact .inl ⟨‹_›, ‹_›, rfl⟩
    · exact .inr (.inl rfl)
  · split
    · exact .inr (.inr (.inl ⟨‹_›, rfl⟩))
    · exact .inr (.inr (.inr ⟨Nat.pos_of_ne_zero ‹_›, rfl⟩))

/-- Settles O24: an infinity, a subnormal value and a normal one each pack into the exponent and fraction they came
from. -/
theorem binarySixtyFourBitsRoundTrip : Obligations.BinarySixtyFourBitsRoundTrip := by
  intro b hnan
  have hf : (b.extractLsb' 0 52).toNat < 2 ^ 52 := (b.extractLsb' 0 52).isLt
  conv_rhs => rw [← withSign_fields b]
  obtain ⟨he, hfrac, h⟩ | h | ⟨he, h⟩ | ⟨he, h⟩ := f64OfBits_cases b
  · rw [h, f64ToBits, he, hfrac, Nat.add_zero]
  · exact absurd h hnan
  · rw [h, f64ToBits, packUnits_of_lt (by omega), he, Nat.zero_mul, Nat.zero_add]
  · rw [h, f64ToBits, packUnits_normal _ _ hf, Nat.sub_add_cancel he]

end Sys2Proof.Machine
end

section
/-! The machine's invariant (10_state.md R40, R41; 20_memory.md R65; 42_padding.md R160; 43_tag.md R198, R199): what
each operation and each move keeps of it. -/

namespace Sys2Proof.Machine

/-! ## The invariant of a state, part by part -/

theorem Pad.ok_of_inCall {p : Pad} {c : PadCall} (hrate : legalRate p.sampleRate = true) (hcall : p.call = some c)
    (hc : c.ok) : p.ok :=
  ⟨hrate, fun _ h => Option.some.inj (hcall.symm.trans h) ▸ hc⟩

theorem Pad.ok_of_idle {p : Pad} (hrate : legalRate p.sampleRate = true) (hcall : p.call = none) : p.ok :=
  ⟨hrate, fun _ h => by rw [hcall] at h; cases h⟩

theorem Tag.ok_of_inCall {t : Tag} {c : TagCall} (hcall : t.call = some c) (hc : c.ok) : t.ok :=
  fun _ h => Option.some.inj (hcall.symm.trans h) ▸ hc

theorem Tag.ok_of_idle {t : Tag} (hcall : t.call = none) : t.ok := fun _ h => by rw [hcall] at h; cases h

/-- A new PAD is between calls, and PAD.CONSTRUCT takes legal rates only. -/
theorem Pad.fresh_ok {rate : BitVec 64} (hrate : legalRate rate = true) : (Pad.fresh rate).ok :=
  Pad.ok_of_idle (p := Pad.fresh rate) hrate rfl

theorem Tag.fresh_ok : Tag.fresh.ok := Tag.ok_of_idle rfl

/-- A status read or an output of CODEC or DET promises nothing. -/
theorem Reply.ok_of_isRead {r : Reply} (hr : r.isRead = true) : r.ok := by
  cases r with
  | padReturned => cases hr
  | tagReturned => cases hr
  | decoded | detected | padConstructed | padStatus | tagConstructed | tagStatus => trivial

namespace State.Inv

variable {s : State} (hI : s.Inv)
include hI

theorem pad_ok {h : Nat} {p : Pad} (hp : s.pads[h]? = some p) : p.ok := of_getElem? hI.1 hp

theorem tag_ok {h : Nat} {t : Tag} (ht : s.tags[h]? = some t) : t.ok := of_getElem? hI.2.1 ht

/-- A PAD in a call has a legal rate, and its call is in order. -/
theorem pad_inCall {h : Nat} {p : Pad} {c : PadCall} (hc : padInCall s h p c) :
    legalRate p.sampleRate = true ∧ c.ok :=
  have hok := hI.pad_ok hc.1
  ⟨hok.1, hok.2 c hc.2.1⟩

/-- The call of a TAG is in order. -/
theorem tag_inCall {h : Nat} {t : Tag} {c : TagCall} (hc : tagInCall s h t c) : c.ok := hI.tag_ok hc.1 c hc.2.1

theorem setPad {p : Pad} (h : Nat) (hp : p.ok) : (s.setPad h p).Inv := ⟨forall_mem_set hI.1 hp, hI.2⟩

theorem setTag {t : Tag} (h : Nat) (ht : t.ok) : (s.setTag h t).Inv := ⟨hI.1, forall_mem_set hI.2.1 ht, hI.2.2⟩

theorem addPad {p : Pad} (hp : p.ok) : { s with pads := s.pads ++ [p] }.Inv :=
  ⟨List.forall_mem_append.2 ⟨hI.1, List.forall_mem_singleton.2 hp⟩, hI.2⟩

theorem addTag {t : Tag} (ht : t.ok) : { s with tags := s.tags ++ [t] }.Inv :=
  ⟨hI.1, List.forall_mem_append.2 ⟨hI.2.1, List.forall_mem_singleton.2 ht⟩, hI.2.2⟩

theorem reply {r : Reply} (hr : r.ok) : (s.reply r).Inv := ⟨hI.1, hI.2.1, List.forall_mem_cons.2 ⟨hr, hI.2.2⟩⟩

/-- The invariant does not speak of the schedule. -/
theorem dropTurn : s.dropTurn.Inv := hI

end State.Inv

/-! ## What the operations of a call keep -/

theorem PadCall.start_ok (inp : InWindow) (out : OutSpec) : (PadCall.start inp out).ok :=
  ⟨Nat.zero_le _, windowOk_open out⟩

theorem TagCall.start_ok (inp : InWindow) (out : OutSpec) : (TagCall.start inp out).ok :=
  ⟨le_rfl, Nat.zero_le _, rfl, rfl, windowOk_open out⟩

/-- PAD.DRAIN adds slot `o`, which holds no marker. -/
theorem PadCall.ok.drain {c : PadCall} (hc : c.ok) (hcap : c.o < c.out.cap) :
    { c with o := c.o + 1, out := { c.out with slots := Memory.write c.out.slots c.o filler } }.ok :=
  ⟨hc.1, windowOk_write hc.2 hcap isMarker_filler⟩

/-- PAD.MARKER only reads an item of the window. -/
theorem PadCall.ok.marker {c : PadCall} {x : Item} (hc : c.ok) (hx : c.inp.items[c.i]? = some x) :
    { c with i := c.i + 1 }.ok :=
  ⟨(List.getElem?_eq_some_iff.1 hx).1, hc.2⟩

/-- PAD.DATA reads an item of the window and copies it to slot `o`. -/
theorem PadCall.ok.data {c : PadCall} {x : Item} (hc : c.ok) (hcap : c.o < c.out.cap)
    (hx : c.inp.items[c.i]? = some x) (hm : isMarker x = false) :
    { c with
      i := c.i + 1
      o := c.o + 1
      out := { c.out with slots := Memory.write c.out.slots c.o x } }.ok :=
  ⟨(List.getElem?_eq_some_iff.1 hx).1, windowOk_write hc.2 hcap hm⟩

/-- TAG.MARKER adds one annotation and leaves `i - r`, the number of slots written. -/
theorem TagCall.ok.marker {c : TagCall} (hc : c.ok) (hi : c.i < c.n) (a : Ann) :
    { c with anns := c.anns ++ [a], r := c.r + 1, i := c.i + 1 }.ok := by
  obtain ⟨hri, _, hn, hanns, hw⟩ := hc
  refine ⟨Nat.succ_le_succ hri, hi, hn, by simp [hanns], ?_⟩
  simpa [Nat.add_sub_add_right] using hw

/-- TAG.DATA writes slot `i - r`, just above those written. -/
theorem TagCall.ok.data {c : TagCall} {x : Item} (hc : c.ok) (hi : c.i < c.n) (hm : isMarker x = false)
    (hcap : c.i - c.r < c.out.cap) :
    { c with i := c.i + 1, out := { c.out with slots := Memory.write c.out.slots (c.i - c.r) x } }.ok := by
  obtain ⟨hri, _, hn, hanns, hw⟩ := hc
  refine ⟨Nat.le_succ_of_le hri, hi, hn, hanns, ?_⟩
  simpa [Nat.succ_sub hri] using windowOk_write hw hcap hm

/-- A host write of `In` changes no cursor and not `IN_LEN`. -/
theorem PadCall.ok.hostWrite {c : PadCall} (hc : c.ok) (k : Nat) (x : Item) :
    { c with inp := replaceItem c.inp k x }.ok := by
  simpa [PadCall.ok, replaceItem] using hc

/-- A host write of `In` changes no counter and not `IN_LEN`. -/
theorem TagCall.ok.hostWrite {c : TagCall} (hc : c.ok) (k : Nat) (x : Item) :
    { c with inp := replaceItem c.inp k x }.ok := by
  simpa [TagCall.ok, replaceItem] using hc

/-- A TAG call that ends is at `i = N`, so its window holds the `N - r` items that were no markers. -/
theorem TagCall.ok.returned {c : TagCall} (hc : c.ok) (hend : c.n ≤ c.i) (h : Nat) :
    (Reply.tagReturned h c.n (c.n - c.r) c.out c.anns).ok := by
  obtain ⟨hri, hin, _, hanns, hw⟩ := hc
  have hi : c.i = c.n := by omega
  rw [hi] at hri hw
  exact ⟨hw, by omega⟩

/-- The end of a TAG call is selected at `i = N` only. -/
theorem tagSelect_finish {h : Nat} {c : TagCall} (hs : tagSelect h c = .finish) : c.n ≤ c.i := by
  rcases tagSelect_cases h c with ⟨_, _, _, he⟩ | ⟨_, _, he⟩ | ⟨hend, _⟩
  · rw [he] at hs
    cases hs
  · rw [he] at hs
    cases hs
  · exact hend

/-! ## Every step keeps the invariant -/

/-- Every operation keeps the invariant. -/
theorem Effect.keeps_inv {s s' : State} {i : Instr} (he : Effect s i s') (hI : s.Inv) : s'.Inv := by
  cases he with
  | read _ r hr => exact hI.reply (Reply.ok_of_isRead hr)
  | padConstruct rate hl => exact (hI.addPad (Pad.fresh_ok hl)).reply trivial
  | tagConstruct => exact (hI.addTag Tag.fresh_ok).reply trivial
  | padCall h inp out p hi hf =>
    exact hI.setPad h (Pad.ok_of_inCall (hI.pad_ok hi.1).1 rfl (PadCall.start_ok inp out))
  | tagCall h inp out t hi hf => exact hI.setTag h (Tag.ok_of_inCall rfl (TagCall.start_ok inp out))
  | padDrain h p c hc ho hcap =>
    obtain ⟨hrate, hok⟩ := hI.pad_inCall hc
    exact hI.setPad h (Pad.ok_of_inCall hrate rfl (hok.drain hcap))
  | padMarker h ticks p c hc ho hcap hx =>
    obtain ⟨hrate, hok⟩ := hI.pad_inCall hc
    exact hI.setPad h (Pad.ok_of_inCall hrate rfl (hok.marker hx))
  | padData h x p c hc ho hcap hx hm =>
    obtain ⟨hrate, hok⟩ := hI.pad_inCall hc
    exact hI.setPad h (Pad.ok_of_inCall hrate rfl (hok.data hcap hx hm))
  | tagMarker h ticks t c hc hi hx =>
    exact hI.setTag h (Tag.ok_of_inCall rfl ((hI.tag_inCall hc).marker hi _))
  | tagData h x t c hc hi hx hm hcap =>
    exact hI.setTag h (Tag.ok_of_inCall rfl ((hI.tag_inCall hc).data hi hm hcap))

/-- Every move keeps the invariant. -/
theorem takeTurn_keeps_inv {m : Turn} {s s' : State} (hI : s.Inv) (hn : takeTurn m s = .next s') : s'.Inv := by
  rcases takeTurn_next hn with rfl | ⟨i, hx⟩ | ⟨h, p, c, hc, _, rfl⟩ | ⟨h, t, c, hc, hend, rfl⟩ |
    ⟨h, k, x, p, c, hc, _, rfl⟩ | ⟨h, k, x, t, c, hc, _, rfl⟩
  · exact hI
  · exact (exec_effect hx).keeps_inv hI
  · obtain ⟨hrate, hok⟩ := hI.pad_inCall hc
    exact (hI.setPad h (p := { p with call := none }) (Pad.ok_of_idle hrate rfl)).reply
      (r := .padReturned h c.i c.o c.out) hok.2
  · exact (hI.setTag h (Tag.ok_of_idle rfl)).reply
      ((hI.tag_inCall hc).returned (tagSelect_finish hend) h)
  · obtain ⟨hrate, hok⟩ := hI.pad_inCall hc
    exact hI.setPad h (Pad.ok_of_inCall hrate rfl (hok.hostWrite k x))
  · exact hI.setTag h (Tag.ok_of_inCall rfl ((hI.tag_inCall hc).hostWrite k x))

/-- Settles O53: the invariant is kept by every effect of an operation, by the end of a call and by a host write of
`In`. -/
theorem everyStepKeepsTheInvariant : Obligations.EveryStepKeepsTheInvariant := by
  intro s s' hI hn
  obtain rfl | ⟨m, _, hm⟩ := step_next hn
  · exact hI
  · exact takeTurn_keeps_inv hI.dropTurn hm

end Sys2Proof.Machine
end

section
/-! Which operation and which move writes which register (10_state.md R33, R37, R38), and the start of a PAD call
(10_state.md R40, R42). -/

namespace Sys2Proof.Machine

/-! ## Entries carried through a change of the list -/

/-- Every entry of `l` is still at its place in `l'`, as an entry that `R` relates to the old one: none is lost, and
each changed only as `R` allows. -/
def Carried {α : Type} (R : Nat → α → α → Prop) (l l' : List α) : Prop :=
  ∀ h a, l[h]? = some a → ∃ a', l'[h]? = some a' ∧ R h a a'

namespace Carried

variable {α : Type} {R : Nat → α → α → Prop} (hR : ∀ h a, R h a a)
include hR

theorem refl (l : List α) : Carried R l l := fun h a ha => ⟨a, ha, hR h a⟩

/-- A new entry comes after the others. -/
theorem append (l l' : List α) : Carried R l (l ++ l') := fun h a ha =>
  ⟨a, by rw [List.getElem?_append_left (List.getElem?_eq_some_iff.1 ha).1, ha], hR h a⟩

/-- Only the entry that is set changes. -/
theorem set {l : List α} {k : Nat} {b b' : α} (hb : l[k]? = some b) (hbb' : R k b b') :
    Carried R l (l.set k b') := by
  intro h a ha
  by_cases hk : k = h
  · subst hk
    obtain rfl := Option.some.inj (hb.symm.trans ha)
    exact ⟨b', List.getElem?_set_self (List.getElem?_eq_some_iff.1 ha).1, hbb'⟩
  · exact ⟨a, by rw [List.getElem?_set_ne hk, ha], hR h a⟩

end Carried

/-! ## The registers of PAD -/

/-- The change from `p` to `p'` is one that the row of each register of PAD allows operation `i` on PAD `h`
(10_state.md R33). -/
def PadWrittenBy (i : Instr) (h : Nat) (p p' : Pad) : Prop :=
  (p'.lastTimestamp ≠ p.lastTimestamp → ∃ t, i = .padMarker h t ∧ p'.lastTimestamp = t) ∧
  (p'.itemsSinceTag ≠ p.itemsSinceTag → (∃ x, i = .padData h x) ∨ ∃ t, i = .padMarker h t) ∧
  (p'.pendingPadding ≠ p.pendingPadding → i = .padDrain h ∨ ∃ t, i = .padMarker h t) ∧
  p'.sampleRate = p.sampleRate

/-- A call put in place or taken away writes no register. -/
theorem PadWrittenBy.setCall (i : Instr) (h : Nat) (p : Pad) (c : Option PadCall) :
    PadWrittenBy i h p { p with call := c } :=
  ⟨absurd rfl, absurd rfl, absurd rfl, rfl⟩

theorem PadWrittenBy.refl (i : Instr) (h : Nat) (p : Pad) : PadWrittenBy i h p p := .setCall i h p p.call

/-- Every operation carries every PAD on, and writes only the registers whose rows name it. -/
theorem Effect.pads_carried {i : Instr} {s s' : State} (he : Effect s i s') :
    Carried (PadWrittenBy i) s.pads s'.pads := by
  have hR := PadWrittenBy.refl i
  cases he with
  | read | tagConstruct | tagCall | tagMarker | tagData => exact .refl hR _
  | padConstruct => exact .append hR s.pads _
  | padCall h inp out p hi => exact .set hR hi.1 (.setCall _ h p _)
  | padDrain h p c hc => exact .set hR hc.1 ⟨absurd rfl, absurd rfl, fun _ => .inl rfl, rfl⟩
  | padMarker h ticks p c hc =>
    exact .set hR hc.1
      ⟨fun _ => ⟨ticks, rfl, rfl⟩, fun _ => .inr ⟨ticks, rfl⟩, fun _ => .inr ⟨ticks, rfl⟩, rfl⟩
  | padData h x p c hc => exact .set hR hc.1 ⟨absurd rfl, fun _ => .inl ⟨x, rfl⟩, absurd rfl, rfl⟩

/-- Settles O57: `Effect.pads_carried`, one effect for each operation. -/
theorem padRegistersAreWrittenByTheirOperations : Obligations.PadRegistersAreWrittenByTheirOperations :=
  fun _ _ _ h p hn hp => (exec_effect hn).pads_carried h p hp

/-- Every move carries every PAD on with its rate. -/
theorem takeTurn_keeps_sampleRate {m : Turn} {s s' : State} (hn : takeTurn m s = .next s') :
    Carried (fun _ p p' => p'.sampleRate = p.sampleRate) s.pads s'.pads := by
  have hR : ∀ (_ : Nat) (p : Pad), p.sampleRate = p.sampleRate := fun _ _ => rfl
  rcases takeTurn_next hn with rfl | ⟨i, hx⟩ | ⟨h, p, c, hc, _, rfl⟩ | ⟨h, t, c, _, _, rfl⟩ |
    ⟨h, k, x, p, c, hc, _, rfl⟩ | ⟨h, k, x, t, c, _, _, rfl⟩
  · exact .refl hR _
  · intro h p hp
    obtain ⟨p', hp', _, _, _, hrate⟩ := (exec_effect hx).pads_carried h p hp
    exact ⟨p', hp', hrate⟩
  · exact .set hR hc.1 rfl
  · exact .refl hR _
  · exact .set hR hc.1 rfl
  · exact .refl hR _

/-- Settles O56: a step is one move, and no move writes `sample_rate`. -/
theorem sampleRateIsFixedForLife : Obligations.SampleRateIsFixedForLife := by
  intro s s' h p hn hp
  obtain rfl | ⟨m, _, hm⟩ := step_next hn
  · exact ⟨p, hp, rfl⟩
  · exact takeTurn_keeps_sampleRate hm h p hp

/-! ## The register of TAG -/

/-- No operation writes the register of any TAG. -/
theorem Effect.tags_carried {i : Instr} {s s' : State} (he : Effect s i s') :
    Carried (fun _ t t' => t'.itemsWrittenTotal = t.itemsWrittenTotal) s.tags s'.tags := by
  have hR : ∀ (_ : Nat) (t : Tag), t.itemsWrittenTotal = t.itemsWrittenTotal := fun _ _ => rfl
  cases he with
  | read | padConstruct | padCall | padDrain | padMarker | padData => exact .refl hR _
  | tagConstruct => exact .append hR s.tags _
  | tagCall h inp out t hi => exact .set hR hi.1 rfl
  | tagMarker h ticks t c hc => exact .set hR hc.1 rfl
  | tagData h x t c hc => exact .set hR hc.1 rfl

/-- Move `m` takes TAG `h` from `t` to `t'` without writing its register, or ends its call
(43_tag.md R194). -/
def TagWrittenBy (m : Turn) (h : Nat) (t t' : Tag) : Prop :=
  t'.itemsWrittenTotal = t.itemsWrittenTotal ∨
    ∃ c, m = .agent (.tag h) ∧ t.call = some c ∧ c.n ≤ c.i ∧
      t' = { t with
        itemsWrittenTotal := t.itemsWrittenTotal + BitVec.ofNat 64 (c.n - c.r)
        call := none }

/-- Every move carries every TAG on, and writes only the register of one whose call it ends. -/
theorem takeTurn_tags_carried {m : Turn} {s s' : State} (hn : takeTurn m s = .next s') :
    Carried (TagWrittenBy m) s.tags s'.tags := by
  have hR : ∀ (h : Nat) (t : Tag), TagWrittenBy m h t t := fun _ _ => .inl rfl
  have ofExec {i : Instr} (hx : exec i s = .next s') : Carried (TagWrittenBy m) s.tags s'.tags := by
    intro h t ht
    obtain ⟨t', ht', htotal⟩ := (exec_effect hx).tags_carried h t ht
    exact ⟨t', ht', .inl htotal⟩
  cases m with
  | host r => exact ofExec hn
  | agent a =>
    cases a with
    | pad h =>
      obtain rfl | ⟨p, c, _, ⟨q, _, hx⟩ | ⟨_, rfl⟩⟩ := padTurn_next hn
      · exact .refl hR _
      · exact ofExec hx
      · exact .refl hR _
    | tag h =>
      obtain rfl | ⟨t, c, hc, ⟨q, _, hx⟩ | ⟨hend, rfl⟩⟩ := tagTurn_next hn
      · exact .refl hR _
      · exact ofExec hx
      · exact .set hR hc.1 (.inr ⟨c, rfl, hc.2.1, tagSelect_finish hend, rfl⟩)
  | hostWriteIn a k x =>
    cases a with
    | pad h =>
      obtain rfl | ⟨p, c, _, _, rfl⟩ := writePadIn_next hn
      · exact .refl hR _
      · exact .refl hR _
    | tag h =>
      obtain rfl | ⟨t, c, hc, _, rfl⟩ := writeTagIn_next hn
      · exact .refl hR _
      · exact .set hR hc.1 (.inl rfl)

/-- Settles O58: no operation writes the register, and of the moves only the turn that ends its own call does. -/
theorem tagRegisterIsWrittenOnlyAtTheEndOfACall : Obligations.TagRegisterIsWrittenOnlyAtTheEndOfACall := by
  intro s s' h t ht
  refine ⟨fun i hn => (exec_effect hn).tags_carried h t ht, fun hn => ?_⟩
  obtain rfl | ⟨m, hturn, hm⟩ := step_next hn
  · exact ⟨t, ht, absurd rfl⟩
  · obtain ⟨t', ht', hsame | ⟨c, rfl, hcall, hend, hnew⟩⟩ := takeTurn_tags_carried hm h t ht
    · exact ⟨t', ht', fun hne => absurd hsame hne⟩
    · exact ⟨t', ht', fun _ => ⟨c, hcall, hend, hturn, hnew⟩⟩

/-! ## The start of a PAD call -/

/-- Settles O16: the two checks of the windows are `fits`, under which `execPadCall` only puts the new call in place. -/
theorem padCallStartsTheCall : Obligations.PadCallStartsTheCall :=
  fun _ _ _ _ _ hi hsize hin hout => execPadCall_of hi (fits_iff.2 ⟨hsize, hin, hout⟩)

end Sys2Proof.Machine
end

section
/-! The windows as the host's memory holds them (20_memory.md R60 to R66): the canonical form of the written slots, the
bytes of an item, and the alignment of a window. -/

namespace Sys2Proof.Machine

/-! ## The canonical form of the windows in flight -/

theorem Pad.windowWf_of_inCall {p : Pad} {c : PadCall} (hcall : p.call = some c)
    (hw : Memory.wf c.out.slots = true) : p.windowWf :=
  fun _ h => Option.some.inj (hcall.symm.trans h) ▸ hw

theorem Pad.windowWf_of_idle {p : Pad} (hcall : p.call = none) : p.windowWf :=
  fun _ h => by rw [hcall] at h; cases h

theorem Tag.windowWf_of_inCall {t : Tag} {c : TagCall} (hcall : t.call = some c)
    (hw : Memory.wf c.out.slots = true) : t.windowWf :=
  fun _ h => Option.some.inj (hcall.symm.trans h) ▸ hw

theorem Tag.windowWf_of_idle {t : Tag} (hcall : t.call = none) : t.windowWf :=
  fun _ h => by rw [hcall] at h; cases h

namespace State.memWf

variable {s : State} (hm : s.memWf)
include hm

/-- The output window of a PAD in a call is canonical. -/
theorem pad_inCall {h : Nat} {p : Pad} {c : PadCall} (hc : padInCall s h p c) : Memory.wf c.out.slots = true :=
  of_getElem? hm.1 hc.1 c hc.2.1

/-- The output window of a TAG in a call is canonical. -/
theorem tag_inCall {h : Nat} {t : Tag} {c : TagCall} (hc : tagInCall s h t c) : Memory.wf c.out.slots = true :=
  of_getElem? hm.2 hc.1 c hc.2.1

theorem setPad {p : Pad} (h : Nat) (hp : p.windowWf) : (s.setPad h p).memWf := ⟨forall_mem_set hm.1 hp, hm.2⟩

theorem setTag {t : Tag} (h : Nat) (ht : t.windowWf) : (s.setTag h t).memWf := ⟨hm.1, forall_mem_set hm.2 ht⟩

theorem addPad {p : Pad} (hp : p.windowWf) : { s with pads := s.pads ++ [p] }.memWf :=
  ⟨List.forall_mem_append.2 ⟨hm.1, List.forall_mem_singleton.2 hp⟩, hm.2⟩

theorem addTag {t : Tag} (ht : t.windowWf) : { s with tags := s.tags ++ [t] }.memWf :=
  ⟨hm.1, List.forall_mem_append.2 ⟨hm.2, List.forall_mem_singleton.2 ht⟩⟩

/-- A returned window is the host's again: the canonical form speaks of calls in progress only. -/
theorem reply (r : Reply) : (s.reply r).memWf := hm

/-- The canonical form does not speak of the schedule. -/
theorem dropTurn : s.dropTurn.memWf := hm

end State.memWf

/-- Every operation keeps the windows canonical: it opens an empty one, writes one slot, or leaves the slots. -/
theorem Effect.keeps_memWf {s s' : State} {i : Instr} (he : Effect s i s') (hm : s.memWf) : s'.memWf := by
  cases he with
  | read _ r => exact hm.reply r
  | padConstruct rate => exact (hm.addPad (Pad.windowWf_of_idle (p := Pad.fresh rate) rfl)).reply _
  | tagConstruct => exact (hm.addTag (Tag.windowWf_of_idle (t := Tag.fresh) rfl)).reply _
  | padCall h => exact hm.setPad h (Pad.windowWf_of_inCall rfl rfl)
  | tagCall h => exact hm.setTag h (Tag.windowWf_of_inCall rfl rfl)
  | padDrain h p c hc =>
    exact hm.setPad h (Pad.windowWf_of_inCall rfl (Memory.write_wf _ _ _ (hm.pad_inCall hc)))
  | padMarker h ticks p c hc =>
    have hw := hm.pad_inCall hc
    exact hm.setPad h (Pad.windowWf_of_inCall rfl hw)
  | padData h x p c hc =>
    exact hm.setPad h (Pad.windowWf_of_inCall rfl (Memory.write_wf _ _ _ (hm.pad_inCall hc)))
  | tagMarker h ticks t c hc =>
    have hw := hm.tag_inCall hc
    exact hm.setTag h (Tag.windowWf_of_inCall rfl hw)
  | tagData h x t c hc =>
    exact hm.setTag h (Tag.windowWf_of_inCall rfl (Memory.write_wf _ _ _ (hm.tag_inCall hc)))

/-- Every move keeps the windows canonical. -/
theorem takeTurn_keeps_memWf {m : Turn} {s s' : State} (hm : s.memWf) (hn : takeTurn m s = .next s') : s'.memWf := by
  rcases takeTurn_next hn with rfl | ⟨i, hx⟩ | ⟨h, p, c, _, _, rfl⟩ | ⟨h, t, c, _, _, rfl⟩ |
    ⟨h, k, x, p, c, hc, _, rfl⟩ | ⟨h, k, x, t, c, hc, _, rfl⟩
  · exact hm
  · exact (exec_effect hx).keeps_memWf hm
  · exact (hm.setPad h (p := { p with call := none }) (Pad.windowWf_of_idle rfl)).reply _
  · exact (hm.setTag h (Tag.windowWf_of_idle rfl)).reply _
  · have hw := hm.pad_inCall hc
    exact hm.setPad h (Pad.windowWf_of_inCall rfl hw)
  · have hw := hm.tag_inCall hc
    exact hm.setTag h (Tag.windowWf_of_inCall rfl hw)

/-- Settles O54: a step is one move; a move that writes a slot writes it by `Memory.write`, which keeps the form. -/
theorem everyStepKeepsTheCanonicalForm : Obligations.EveryStepKeepsTheCanonicalForm := by
  intro s s' hm hn
  obtain rfl | ⟨m, _, ht⟩ := step_next hn
  · exact hm
  · exact takeTurn_keeps_memWf hm.dropTurn ht

/-! ## The bytes of an item -/

/-- Byte `k` below the bytes above it. -/
theorem shiftLeft_or_byte (x : Item) (k : Nat) :
    ((x >>> (8 * (k + 1))) <<< 8) ||| (x.extractLsb' (8 * k) 8).setWidth 64 = x >>> (8 * k) := by
  apply BitVec.eq_of_getLsbD_eq
  intro i hi
  by_cases h8 : i < 8
  · simp [h8, hi]
  · simp [h8, hi, show 8 * (k + 1) + (i - 8) = 8 * k + i by omega]

/-- The bytes from byte `k` up, the least significant one lowest, are the item without the bytes below `k`. -/
theorem itemOfBytes_little_from (x : Item) (n k : Nat) (h : k + n = 8) :
    itemOfBytes .little ((List.range' k n).map fun j => x.extractLsb' (8 * j) 8) = x >>> (8 * k) := by
  induction n generalizing k with
  | zero =>
    obtain rfl : k = 8 := h
    exact (BitVec.ushiftRight_eq_zero (by decide)).symm
  | succ n ih =>
    have hrest := ih (k + 1) (by omega)
    rw [← shiftLeft_or_byte, ← hrest]
    rfl

theorem itemOfBytes_itemBytes_little (x : Item) : itemOfBytes .little (itemBytes .little x) = x :=
  itemOfBytes_little_from x 8 0 rfl

/-- The two byte orders are each other's reverse. -/
theorem itemBytes_big (x : Item) : itemBytes .big x = (itemBytes .little x).reverse := rfl

theorem itemOfBytes_big_reverse (bs : List (BitVec 8)) : itemOfBytes .big bs.reverse = itemOfBytes .little bs :=
  List.foldl_reverse

theorem itemOfBytes_itemBytes (order : ByteOrder) (x : Item) : itemOfBytes order (itemBytes order x) = x := by
  cases order with
  | little => exact itemOfBytes_itemBytes_little x
  | big => rw [itemBytes_big, itemOfBytes_big_reverse, itemOfBytes_itemBytes_little]

theorem itemBytes_length (order : ByteOrder) (x : Item) : (itemBytes order x).length = 8 := by
  cases order <;> rfl

/-- The cells of an item are its eight bytes at consecutive addresses. -/
theorem itemCells_addresses (order : ByteOrder) (a : Nat) (x : Item) :
    (itemCells order a x).map Prod.fst = (List.range 8).map (a + ·) := by
  have hsnd : (itemBytes order x).zipIdx.map Prod.snd = List.range 8 := by
    rw [List.zipIdx_map_snd, itemBytes_length, List.range_eq_range']
  rw [← hsnd, itemCells, List.map_map, List.map_map]
  rfl

/-- Settles O47: the little order by rebuilding the item byte by byte from the top, the big one as its reverse. -/
theorem bytesOfAnItemGiveItBack : Obligations.BytesOfAnItemGiveItBack := fun order x base k =>
  ⟨itemOfBytes_itemBytes order x, itemCells_addresses order (base + 8 * k) x⟩

/-! ## Unaligned windows -/

/-- No length above `MAX_CALL`. -/
theorem tooLarge_eq_false {maxCall : Option Nat} {inp : InWindow} {out : OutSpec}
    (hsize : ∀ m, maxCall = some m → inp.items.length ≤ m ∧ out.cap ≤ m) : tooLarge maxCall inp out = false := by
  cases maxCall with
  | none => rfl
  | some m => simpa [tooLarge] using hsize m rfl

/-- A call that is not too large and yet does not fit has an unaligned window. -/
theorem State.ifFits_unaligned {s : State} {inp : InWindow} {out : OutSpec}
    (hsize : tooLarge s.maxCall inp out = false) (hf : ¬ fits s inp out = true) (res : Result State) :
    s.ifFits inp out res = .refused .unalignedWindow := by
  rw [fits, hsize, Bool.not_false, Bool.true_and] at hf
  simp [State.ifFits, hsize, hf]

/-- What PAD.CALL answers on an idle PAD is up to its windows alone. -/
theorem execPadCall_idle {s : State} {h : Nat} {p : Pad} (hi : idlePad s h p) (inp : InWindow) (out : OutSpec) :
    execPadCall h inp out s =
      s.ifFits inp out (.next (s.setPad h { p with call := some (PadCall.start inp out) })) := by
  obtain ⟨hp, hc, hr⟩ := hi
  simp [execPadCall, State.onPad_of hp hr, unlessBusy, Pad.busy, hc]

/-- What TAG.CALL answers on an idle TAG is up to its windows alone. -/
theorem execTagCall_idle {s : State} {h : Nat} {t : Tag} (hi : idleTag s h t) (inp : InWindow) (out : OutSpec) :
    execTagCall h inp out s =
      s.ifFits inp out (.next (s.setTag h { t with call := some (TagCall.start inp out) })) := by
  obtain ⟨ht, hc, hr⟩ := hi
  simp [execTagCall, State.onTag_of ht hr, unlessBusy, Tag.busy, hc]

/-- Settles O46: a call on an idle PAD or TAG is what `ifFits` answers, and an unaligned base does not fit. -/
theorem unalignedWindowsAreRefused : Obligations.UnalignedWindowsAreRefused := by
  intro s h inp out a ha hbase hsize
  have hf : ¬ fits s inp out = true := by
    intro hf
    obtain ⟨_, hin, hout⟩ := fits_iff.1 hf
    exact ha (hbase.elim (hin a) (hout a))
  have hrefused := State.ifFits_unaligned (tooLarge_eq_false hsize) hf
  exact ⟨fun p hi => (execPadCall_idle hi inp out).trans (hrefused _),
    fun t hi => (execTagCall_idle hi inp out).trans (hrefused _)⟩

end Sys2Proof.Machine
end

section
/-! Which agent a move changes, and what its turn depends on (20_memory.md R72, 60_exceptions.md R231). -/

namespace Sys2Proof.Machine

/-! ## The agents of a state -/

/-- The PAD or TAG of that name, if it was constructed. -/
def State.inst (s : State) : AgentId → Option (Pad ⊕ Tag)
  | .pad h => s.pads[h]?.map .inl
  | .tag h => s.tags[h]?.map .inr

theorem State.inst_pad_inj {s u : State} {h : Nat} : u.inst (.pad h) = s.inst (.pad h) ↔ u.pads[h]? = s.pads[h]? :=
  (Option.map_injective Sum.inl_injective).eq_iff

theorem State.inst_tag_inj {s u : State} {h : Nat} : u.inst (.tag h) = s.inst (.tag h) ↔ u.tags[h]? = s.tags[h]? :=
  (Option.map_injective Sum.inr_injective).eq_iff

theorem State.inst_pad_eq_some {s : State} {h : Nat} {p : Pad} :
    s.inst (.pad h) = some (.inl p) ↔ s.pads[h]? = some p := by
  simp [State.inst]

theorem State.inst_tag_eq_some {s : State} {h : Nat} {t : Tag} :
    s.inst (.tag h) = some (.inr t) ↔ s.tags[h]? = some t := by
  simp [State.inst]

/-- States with the same agents have the same lists of them. -/
theorem State.pads_tags_eq_of_inst {s u : State} (h : ∀ a, u.inst a = s.inst a) : u.pads = s.pads ∧ u.tags = s.tags :=
  ⟨List.ext_getElem? fun k => inst_pad_inj.1 (h (.pad k)), List.ext_getElem? fun k => inst_tag_inj.1 (h (.tag k))⟩

theorem State.inst_reply (s : State) (r : Reply) (b : AgentId) : (s.reply r).inst b = s.inst b := rfl

theorem State.inst_setPad_ne {s : State} {h : Nat} {p : Pad} {b : AgentId} (hb : AgentId.pad h ≠ b) :
    (s.setPad h p).inst b = s.inst b := by
  cases b with
  | pad k => exact inst_pad_inj.2 (List.getElem?_set_ne fun hk => hb (congrArg _ hk))
  | tag k => rfl

theorem State.inst_setTag_ne {s : State} {h : Nat} {t : Tag} {b : AgentId} (hb : AgentId.tag h ≠ b) :
    (s.setTag h t).inst b = s.inst b := by
  cases b with
  | pad k => rfl
  | tag k => exact inst_tag_inj.2 (List.getElem?_set_ne fun hk => hb (congrArg _ hk))

/-- A new PAD stands where there was none. -/
theorem State.inst_addPad (s : State) (p : Pad) (b : AgentId) :
    ({ s with pads := s.pads ++ [p] } : State).inst b = s.inst b ∨ s.inst b = none := by
  cases b with
  | pad k =>
    by_cases hk : k < s.pads.length
    · exact .inl (inst_pad_inj.2 (List.getElem?_append_left hk))
    · exact .inr (by simpa [State.inst] using hk)
  | tag k => exact .inl rfl

/-- A new TAG stands where there was none. -/
theorem State.inst_addTag (s : State) (t : Tag) (b : AgentId) :
    ({ s with tags := s.tags ++ [t] } : State).inst b = s.inst b ∨ s.inst b = none := by
  cases b with
  | pad k => exact .inl rfl
  | tag k =>
    by_cases hk : k < s.tags.length
    · exact .inl (inst_tag_inj.2 (List.getElem?_append_left hk))
    · exact .inr (by simpa [State.inst] using hk)

/-! ## What a move leaves unchanged -/

/-- The agent an operation is about, if it is about one (60_exceptions.md R231). -/
def instrAgent? : Instr → Option AgentId
  | .decFft _ _ _ _ _ | .decAvg _ _ _ _ _ | .detMarker _ | .detData _ => none
  | .padConstruct _ | .tagConstruct => none
  | .padCall h _ _ | .padDrain h | .padMarker h _ | .padData h _ | .padStatus h => some (.pad h)
  | .tagCall h _ _ | .tagMarker h _ | .tagData h _ | .tagStatus h => some (.tag h)

/-- A host's request and the operation it decodes to are about the same agent. -/
theorem instrAgent?_decode_host (r : Request) : instrAgent? (decode (.host r)) = (Turn.host r).agent? := by
  cases r with
  | dec word0 word1 =>
    simp only [decode, decodeSample]
    split <;> rfl
  | det x =>
    simp only [decode]
    split <;> rfl
  | padConstruct | padCall | padStatus | tagConstruct | tagCall | tagStatus => rfl

/-- The operations that can be selected in a PAD call. -/
theorem decode_of_padSelect {h : Nat} {p : Pad} {c : PadCall} {q : Presented} (hq : padSelect h p c = .op q) :
    decode q = .padDrain h ∨ (∃ ticks, decode q = .padMarker h ticks) ∨ ∃ x, decode q = .padData h x := by
  obtain ⟨_, ⟨_, rfl⟩ | ⟨_, x, _, rfl⟩⟩ := padSelect_op hq
  · exact .inl rfl
  · simp only [decode]
    split
    · exact .inr (.inl ⟨_, rfl⟩)
    · exact .inr (.inr ⟨_, rfl⟩)

/-- The operations that can be selected in a TAG call. -/
theorem decode_of_tagSelect {h : Nat} {c : TagCall} {q : Presented} (hq : tagSelect h c = .op q) :
    (∃ ticks, decode q = .tagMarker h ticks) ∨ ∃ x, decode q = .tagData h x := by
  obtain ⟨_, x, _, rfl⟩ := tagSelect_op hq
  simp only [decode]
  split
  · exact .inl ⟨_, rfl⟩
  · exact .inr ⟨_, rfl⟩

/-- The operation selected in a PAD call is about that PAD. -/
theorem instrAgent?_of_padSelect {h : Nat} {p : Pad} {c : PadCall} {q : Presented} (hq : padSelect h p c = .op q) :
    instrAgent? (decode q) = some (.pad h) := by
  obtain he | ⟨ticks, he⟩ | ⟨x, he⟩ := decode_of_padSelect hq <;> rw [he] <;> rfl

/-- The operation selected in a TAG call is about that TAG. -/
theorem instrAgent?_of_tagSelect {h : Nat} {c : TagCall} {q : Presented} (hq : tagSelect h c = .op q) :
    instrAgent? (decode q) = some (.tag h) := by
  obtain ⟨ticks, he⟩ | ⟨x, he⟩ := decode_of_tagSelect hq <;> rw [he] <;> rfl

/-- Agent `b` is as it was; or there was none, and what happened is about no agent, as a construction is. -/
def Untouched (about : Option AgentId) (s s' : State) (b : AgentId) : Prop :=
  s'.inst b = s.inst b ∨ s.inst b = none ∧ about = none

/-- An operation touches no agent but the one it is about. -/
theorem Effect.untouched {s s' : State} {i : Instr} (he : Effect s i s') {b : AgentId} (hb : instrAgent? i ≠ some b) :
    Untouched (instrAgent? i) s s' b := by
  cases he with
  | read => exact .inl rfl
  | padConstruct rate => exact (s.inst_addPad (Pad.fresh rate) b).imp_right fun hnone => ⟨hnone, rfl⟩
  | tagConstruct => exact (s.inst_addTag Tag.fresh b).imp_right fun hnone => ⟨hnone, rfl⟩
  | padCall | padDrain | padMarker | padData => exact .inl (State.inst_setPad_ne fun h => hb (congrArg some h))
  | tagCall | tagMarker | tagData => exact .inl (State.inst_setTag_ne fun h => hb (congrArg some h))

/-- A move touches no agent but the one it is about. -/
theorem takeTurn_untouched {m : Turn} {s s' : State} (hn : takeTurn m s = .next s') {b : AgentId}
    (hb : m.agent? ≠ some b) : Untouched m.agent? s s' b := by
  have hne {a : AgentId} (ha : m.agent? = some a) : a ≠ b := fun h => hb (ha.trans (congrArg some h))
  have ofExec {i : Instr} (hi : instrAgent? i = m.agent?) (hx : exec i s = .next s') : Untouched m.agent? s s' b :=
    hi ▸ (exec_effect hx).untouched (hi ▸ hb)
  cases m with
  | host r => exact ofExec (instrAgent?_decode_host r) hn
  | agent a =>
    cases a with
    | pad h =>
      obtain rfl | ⟨p, c, _, ⟨q, hq, hx⟩ | ⟨_, rfl⟩⟩ := padTurn_next hn
      · exact .inl rfl
      · exact ofExec (instrAgent?_of_padSelect hq) hx
      · exact .inl ((State.inst_reply _ _ b).trans (State.inst_setPad_ne (hne rfl)))
    | tag h =>
      obtain rfl | ⟨t, c, _, ⟨q, hq, hx⟩ | ⟨_, rfl⟩⟩ := tagTurn_next hn
      · exact .inl rfl
      · exact ofExec (instrAgent?_of_tagSelect hq) hx
      · exact .inl ((State.inst_reply _ _ b).trans (State.inst_setTag_ne (hne rfl)))
  | hostWriteIn a k x =>
    cases a with
    | pad h =>
      obtain rfl | ⟨p, c, _, _, rfl⟩ := writePadIn_next hn
      · exact .inl rfl
      · exact .inl (State.inst_setPad_ne (hne rfl))
    | tag h =>
      obtain rfl | ⟨t, c, _, _, rfl⟩ := writeTagIn_next hn
      · exact .inl rfl
      · exact .inl (State.inst_setTag_ne (hne rfl))

theorem Untouched.inst_eq_some {about : Option AgentId} {s s' : State} {b : AgentId} {x : Pad ⊕ Tag}
    (hu : Untouched about s s' b) (hx : s.inst b = some x) : s'.inst b = some x := by
  obtain hsame | ⟨hnone, _⟩ := hu
  · exact hsame.trans hx
  · cases hnone.symm.trans hx

/-- Settles O59: a step is one move, after the schedule has moved on. -/
theorem otherInstancesAreUntouched : Obligations.OtherInstancesAreUntouched := by
  intro s s' m hturn hn
  have hm : takeTurn m s.dropTurn = .next s' := by rwa [step, hturn] at hn
  exact ⟨fun h p hb hp => State.inst_pad_eq_some.1 <|
      (takeTurn_untouched hm hb).inst_eq_some (s := s.dropTurn) (State.inst_pad_eq_some.2 hp),
    fun h t hb ht => State.inst_tag_eq_some.1 <|
      (takeTurn_untouched hm hb).inst_eq_some (s := s.dropTurn) (State.inst_tag_eq_some.2 ht)⟩

/-! ## What an agent's turn depends on -/

/-- An outcome as agent `a` sees it: no other agent, no replies and no schedule. -/
def outcomeAt (a : AgentId) : Result State → Result (Option (Pad ⊕ Tag))
  | .next s => .next (s.inst a)
  | .fault f => .fault f
  | .refused r => .refused r

theorem outcomeAt_next {a : AgentId} {s u : State} (h : u.inst a = s.inst a) :
    outcomeAt a (.next u) = outcomeAt a (.next s) := congrArg Host.Outcome.next h

/-- Where `a` sees two outcomes alike and one is a next state, so is the other, with the same agent `a`. -/
theorem exists_next_of_outcomeAt_eq {a : AgentId} {o : Result State} {s : State}
    (h : outcomeAt a o = outcomeAt a (.next s)) : ∃ u, o = .next u ∧ u.inst a = s.inst a := by
  cases o with
  | next u => exact ⟨u, rfl, Host.Outcome.next.inj h⟩
  | fault | refused => cases h

theorem OutWindow.writeThen_at {a : AgentId} {f g : OutWindow → Result State} (w : OutWindow) (k : Nat) (x : Item)
    (hact : ∀ w', outcomeAt a (f w') = outcomeAt a (g w')) :
    outcomeAt a (w.writeThen k x f) = outcomeAt a (w.writeThen k x g) := by
  unfold OutWindow.writeThen
  split
  · exact hact _
  · rfl

section
variable {s u : State} {h : Nat} (hu : u.pads[h]? = s.pads[h]?)
include hu

/-- PAD `h`, put in place, looks the same to itself. -/
theorem outcomeAt_setPad (p : Pad) :
    outcomeAt (.pad h) (.next (u.setPad h p)) = outcomeAt (.pad h) (.next (s.setPad h p)) :=
  outcomeAt_next <| State.inst_pad_inj.2 <| by simp only [State.setPad_pads, List.getElem?_set_self', hu]

theorem State.padStep_at {i : Instr} {f g : Pad → PadCall → Result State}
    (hact : ∀ p c, outcomeAt (.pad h) (f p c) = outcomeAt (.pad h) (g p c)) :
    outcomeAt (.pad h) (u.padStep h i f) = outcomeAt (.pad h) (s.padStep h i g) := by
  unfold State.padStep State.onPad
  rw [hu]
  cases s.pads[h]? with
  | none => rfl
  | some p =>
    cases hr : p.refused with
    | some r => simp only [hr]
    | none =>
      cases hc : p.call with
      | none => simp only [hr, hc]
      | some c =>
        simp only [hr, hc]
        split
        · exact hact p c
        · rfl

/-- What a selected operation makes of PAD `h` depends on that PAD alone. -/
theorem exec_padSelect_at {p : Pad} {c : PadCall} {q : Presented} (hq : padSelect h p c = .op q) :
    outcomeAt (.pad h) (exec (decode q) u) = outcomeAt (.pad h) (exec (decode q) s) := by
  obtain he | ⟨ticks, he⟩ | ⟨x, he⟩ := decode_of_padSelect hq <;> rw [he]
  · exact State.padStep_at hu fun _ c => c.out.writeThen_at _ _ fun _ => outcomeAt_setPad hu _
  · exact State.padStep_at hu fun _ _ => outcomeAt_setPad hu _
  · exact State.padStep_at hu fun _ c => c.out.writeThen_at _ _ fun _ => outcomeAt_setPad hu _

/-- What a turn of PAD `h` makes of it depends on that PAD alone. -/
theorem padTurn_at : outcomeAt (.pad h) (padTurn h u) = outcomeAt (.pad h) (padTurn h s) := by
  have hheld := outcomeAt_next (State.inst_pad_inj.2 hu)
  unfold padTurn
  rw [hu]
  split
  · exact hheld
  · split
    · rfl
    · split
      · exact hheld
      · split
        · exact exec_padSelect_at hu ‹_›
        · exact outcomeAt_setPad hu _
        · rfl

end

section
variable {s u : State} {h : Nat} (hu : u.tags[h]? = s.tags[h]?)
include hu

/-- TAG `h`, put in place, looks the same to itself. -/
theorem outcomeAt_setTag (t : Tag) :
    outcomeAt (.tag h) (.next (u.setTag h t)) = outcomeAt (.tag h) (.next (s.setTag h t)) :=
  outcomeAt_next <| State.inst_tag_inj.2 <| by simp only [State.setTag_tags, List.getElem?_set_self', hu]

theorem State.tagStep_at {i : Instr} {f g : Tag → TagCall → Result State}
    (hact : ∀ t c, outcomeAt (.tag h) (f t c) = outcomeAt (.tag h) (g t c)) :
    outcomeAt (.tag h) (u.tagStep h i f) = outcomeAt (.tag h) (s.tagStep h i g) := by
  unfold State.tagStep State.onTag
  rw [hu]
  cases s.tags[h]? with
  | none => rfl
  | some t =>
    cases hr : t.refused with
    | some r => simp only [hr]
    | none =>
      cases hc : t.call with
      | none => simp only [hr, hc]
      | some c =>
        simp only [hr, hc]
        split
        · exact hact t c
        · rfl

/-- What a selected operation makes of TAG `h` depends on that TAG alone. -/
theorem exec_tagSelect_at {c : TagCall} {q : Presented} (hq : tagSelect h c = .op q) :
    outcomeAt (.tag h) (exec (decode q) u) = outcomeAt (.tag h) (exec (decode q) s) := by
  obtain ⟨ticks, he⟩ | ⟨x, he⟩ := decode_of_tagSelect hq <;> rw [he]
  · exact State.tagStep_at hu fun _ _ => outcomeAt_setTag hu _
  · exact State.tagStep_at hu fun _ c => c.out.writeThen_at _ _ fun _ => outcomeAt_setTag hu _

/-- What a turn of TAG `h` makes of it depends on that TAG alone. -/
theorem tagTurn_at : outcomeAt (.tag h) (tagTurn h u) = outcomeAt (.tag h) (tagTurn h s) := by
  have hheld := outcomeAt_next (State.inst_tag_inj.2 hu)
  unfold tagTurn
  rw [hu]
  split
  · exact hheld
  · split
    · rfl
    · split
      · exact hheld
      · split
        · exact exec_tagSelect_at hu ‹_›
        · exact outcomeAt_setTag hu _
        · rfl

end

/-- What an agent's turn makes of it depends on that agent alone. -/
theorem agentTurn_at {a : AgentId} {s u : State} (hu : u.inst a = s.inst a) :
    outcomeAt a (agentTurn a u) = outcomeAt a (agentTurn a s) := by
  cases a with
  | pad h => exact padTurn_at (State.inst_pad_inj.1 hu)
  | tag h => exact tagTurn_at (State.inst_tag_inj.1 hu)

/-- A turn that one state answers with a next state is answered so by every state with the same agent. -/
theorem agentTurn_next_of_inst {a : AgentId} {s s' u : State} (hn : agentTurn a s = .next s')
    (hu : u.inst a = s.inst a) : ∃ u', agentTurn a u = .next u' ∧ u'.inst a = s'.inst a :=
  exists_next_of_outcomeAt_eq ((agentTurn_at hu).trans (congrArg _ hn))

/-- A turn of one agent, whatever is scheduled after it, leaves every other one, constructed or not. -/
theorem agentTurn_inst_ne {a b : AgentId} {s s' : State} {ts : List Turn}
    (hn : agentTurn a { s with schedule := ts } = .next s') (hab : a ≠ b) : s'.inst b = s.inst b := by
  have hb : (Turn.agent a).agent? ≠ some b := fun h => hab (Option.some.inj h)
  obtain hsame | ⟨_, hnone⟩ := takeTurn_untouched (m := .agent a) hn hb
  · exact hsame
  · cases hnone

/-! ## Two turns in either order -/

/-- No move changes the schedule: the step moves it on before the move is taken. -/
theorem takeTurn_keeps_schedule {m : Turn} {s s' : State} (hn : takeTurn m s = .next s') :
    s'.schedule = s.schedule := by
  rcases takeTurn_next hn with rfl | ⟨i, hx⟩ | ⟨h, p, c, _, _, rfl⟩ | ⟨h, t, c, _, _, rfl⟩ |
    ⟨h, k, x, p, c, _, _, rfl⟩ | ⟨h, k, x, t, c, _, _, rfl⟩
  · rfl
  · exact (exec_keeps_schedule hx).1
  all_goals rfl

theorem runSteps_succ_next {k : Nat} {s s' : State} :
    runSteps (k + 1) s = .next s' ↔ ∃ m, step s = .next m ∧ runSteps k m = .next s' := by
  rw [runSteps]
  cases step s <;> simp

/-- A run takes its first turn and then runs the others from there. -/
theorem runTurns_cons_next {t : Turn} {ts : List Turn} {s s' : State} :
    runTurns (t :: ts) s = .next s' ↔
      ∃ m, takeTurn t { s with schedule := ts } = .next m ∧ runTurns ts m = .next s' := by
  have hfirst : step { s with schedule := t :: ts } = takeTurn t { s with schedule := ts } := step_scheduled rfl
  have hrest {m : State} (hm : takeTurn t { s with schedule := ts } = .next m) : { m with schedule := ts } = m := by
    obtain rfl : m.schedule = ts := takeTurn_keeps_schedule hm
    rfl
  rw [runTurns, List.length_cons, runSteps_succ_next, hfirst]
  exact exists_congr fun m => and_congr_right fun hm => by rw [runTurns, hrest hm]

/-- Settles O60: each turn finds its own agent as it was before the other turn, and leaves the other's agent. -/
theorem stepsOfTwoInstancesCommute : Obligations.StepsOfTwoInstancesCommute := by
  intro s s1 a b hab hrun
  obtain ⟨m, ham, hrest⟩ := runTurns_cons_next.1 hrun
  obtain ⟨m', hbm, hend⟩ := runTurns_cons_next.1 hrest
  obtain rfl : { m' with schedule := [] } = s1 := Host.Outcome.next.inj hend
  have hmb : m.inst b = s.inst b := agentTurn_inst_ne ham hab
  obtain ⟨n, hbn, hb⟩ := agentTurn_next_of_inst (u := { s with schedule := [.agent a] }) hbm hmb.symm
  have hna : n.inst a = s.inst a := agentTurn_inst_ne hbn hab.symm
  obtain ⟨n', han, ha⟩ := agentTurn_next_of_inst (u := { n with schedule := [] }) ham hna
  refine ⟨{ n' with schedule := [] }, runTurns_cons_next.2 ⟨n, hbn, runTurns_cons_next.2 ⟨n', han, rfl⟩⟩,
    State.pads_tags_eq_of_inst (s := m') (u := n') fun c => ?_⟩
  by_cases hca : a = c
  · subst hca
    exact ha.trans (agentTurn_inst_ne hbm hab.symm).symm
  by_cases hcb : b = c
  · subst hcb
    exact (agentTurn_inst_ne han hab).trans hb
  · calc n'.inst c
      _ = n.inst c := agentTurn_inst_ne han hca
      _ = s.inst c := agentTurn_inst_ne hbn hcb
      _ = m.inst c := (agentTurn_inst_ne ham hca).symm
      _ = m'.inst c := (agentTurn_inst_ne hbm hcb).symm

end Sys2Proof.Machine
end

section
/-! The encodings (30_encoding.md R91 to R100): each field of a codec word reads back, a word is its fields and a marker
is its timestamp, so the decoder and the encoder undo each other; and what CODEC drives from two words. -/

namespace Sys2Proof.Machine

/-! ## The fields of the codec's words -/

@[simp] theorem averageFlag_csw0 (timeLo : BitVec 16) (avg : Bool) (index : BitVec 11) (timeHi : BitVec 4) :
    averageFlag (csw0 timeLo avg index timeHi) = avg := by
  rw [averageFlag, csw0_bit]
  simp

@[simp] theorem timeLoOf_csw0 (timeLo : BitVec 16) (avg : Bool) (index : BitVec 11) (timeHi : BitVec 4) :
    timeLoOf (csw0 timeLo avg index timeHi) = timeLo := by
  apply BitVec.eq_of_getLsbD_eq
  intro i hi
  simp [timeLoOf, csw0_bit, hi, show ¬ 16 + i < 4 by omega, show ¬ 16 + i < 15 by omega,
    show 16 + i ≠ 15 by omega]

@[simp] theorem indexOf_csw0 (timeLo : BitVec 16) (avg : Bool) (index : BitVec 11) (timeHi : BitVec 4) :
    indexOf (csw0 timeLo avg index timeHi) = index := by
  apply BitVec.eq_of_getLsbD_eq
  intro i hi
  simp [indexOf, csw0_bit, hi, show 4 + i < 15 by omega]

@[simp] theorem timeHiOf_csw0 (timeLo : BitVec 16) (avg : Bool) (index : BitVec 11) (timeHi : BitVec 4) :
    timeHiOf (csw0 timeLo avg index timeHi) = timeHi := by
  apply BitVec.eq_of_getLsbD_eq
  intro i hi
  simp [timeHiOf, csw0_bit, hi]

/-- The first codec word is its four fields: no bit is dropped. -/
theorem csw0_of_fields (word0 : Word) :
    csw0 (timeLoOf word0) (averageFlag word0) (indexOf word0) (timeHiOf word0) = word0 := by
  apply BitVec.eq_of_getLsbD_eq
  intro i hi
  rw [csw0_bit]
  split_ifs with h4 h15 he
  · simp [timeHiOf, h4]
  · simp [indexOf, show i - 4 < 11 by omega, show 4 + (i - 4) = i by omega]
  · rw [he, averageFlag]
  · simp [timeLoOf, show i - 16 < 16 by omega, show 16 + (i - 16) = i by omega]

@[simp] theorem highHalf_csw1 (high low : BitVec 16) : highHalf (csw1 high low) = high := by
  apply BitVec.eq_of_getLsbD_eq
  intro i hi
  simp [highHalf, csw1_bit, hi]

@[simp] theorem lowHalf_csw1 (high low : BitVec 16) : lowHalf (csw1 high low) = low := by
  apply BitVec.eq_of_getLsbD_eq
  intro i hi
  simp [lowHalf, csw1_bit, hi]

/-- The second codec word is its two halves. -/
theorem csw1_of_halves (word1 : Word) : csw1 (highHalf word1) (lowHalf word1) = word1 := by
  apply BitVec.eq_of_getLsbD_eq
  intro i hi
  rw [csw1_bit]
  split_ifs with h16
  · simp [lowHalf, h16]
  · simp [highHalf, show i - 16 < 16 by omega, show 16 + (i - 16) = i by omega]

/-! ## Decoding a pair of words, and an item -/

theorem decodeSample_of_average {word0 : Word} (h : averageFlag word0 = true) (word1 : Word) :
    decodeSample word0 word1 =
      .decAvg (timeLoOf word0) (indexOf word0) (timeHiOf word0) (highHalf word1) (lowHalf word1) := if_pos h

theorem decodeSample_of_fft {word0 : Word} (h : averageFlag word0 = false) (word1 : Word) :
    decodeSample word0 word1 =
      .decFft (timeLoOf word0) (indexOf word0) (timeHiOf word0) (highHalf word1) (lowHalf word1) :=
  if_neg (Bool.eq_false_iff.1 h)

/-- Every pair of words decodes to an operation of CODEC whose encoding is that pair. -/
theorem encode_decodeSample (word0 word1 : Word) :
    encode (decodeSample word0 word1) = .host (.dec word0 word1) := by
  have h0 := csw0_of_fields word0
  cases h : averageFlag word0 with
  | true => rw [decodeSample_of_average h, encode, ← h, h0, csw1_of_halves]
  | false => rw [decodeSample_of_fft h, encode, ← h, h0, csw1_of_halves]

theorem decodeSample_wf_and_unit (word0 word1 : Word) :
    (decodeSample word0 word1).wf = true ∧ (decodeSample word0 word1).unit = .codec := by
  unfold decodeSample
  split <;> exact ⟨rfl, rfl⟩

/-- Settles O1: the fields of a codec word and the timestamp of a marker read back, and an item that is no marker takes
the data row. -/
theorem decodeOfEncodeIsTheOperation : Obligations.DecodeOfEncodeIsTheOperation := by
  intro i hwf
  cases i with
  | decFft timeLo index timeHi imag real => simp [encode, decode, decodeSample]
  | decAvg timeLo index timeHi magLo magHi => simp [encode, decode, decodeSample]
  | detMarker | padMarker | tagMarker => simp [encode, decode]
  | detData x | padData _ x | tagData _ x =>
    have hx : isMarker x = false := by simpa [Instr.wf] using hwf
    simp [encode, decode, hx]
  | padConstruct | padCall | padDrain | padStatus | tagConstruct | tagCall | tagStatus => rfl

/-- Settles O2: a pair of words is its fields, a marker is its timestamp, and whatever else stands at a unit is kept as
it is. -/
theorem encodeOfDecodeIsTheOperand : Obligations.EncodeOfDecodeIsTheOperand := by
  intro q
  match q with
  | .host (.dec word0 word1) =>
    obtain ⟨hwf, hunit⟩ := decodeSample_wf_and_unit word0 word1
    exact ⟨hwf, hunit, encode_decodeSample word0 word1⟩
  | .host (.det x) | .padItem _ x | .tagItem _ x =>
    cases hx : isMarker x with
    | true => simp [decode, encode, Instr.wf, Instr.unit, Presented.unit, hx, markerItem_ticksOf hx]
    | false => simp [decode, encode, Instr.wf, Instr.unit, Presented.unit, hx]
  | .host (.padConstruct _) | .host (.padCall _ _ _) | .host (.padStatus _) | .padOwed _ => exact ⟨rfl, rfl, rfl⟩
  | .host .tagConstruct | .host (.tagCall _ _ _) | .host (.tagStatus _) => exact ⟨rfl, rfl, rfl⟩

/-- Settles O3, by decoding each of the words. -/
theorem sampleEncodingsDecode : Obligations.SampleEncodingsDecode := by
  unfold Obligations.SampleEncodingsDecode
  decide

/-! ## What CODEC drives from two words -/

/-- CODEC's operation on two words returns the ports of their fields, whatever the kind (40_codec.md R126), and writes
nothing else. -/
theorem exec_decodeSample (word0 word1 : Word) (s : State) :
    exec (decodeSample word0 word1) s =
      .next (s.reply (.decoded (codecPort (averageFlag word0) (timeLoOf word0) (indexOf word0) (timeHiOf word0)
        (highHalf word1) (lowHalf word1)))) := by
  cases h : averageFlag word0 with
  | true => rw [decodeSample_of_average h]; rfl
  | false => rw [decodeSample_of_fft h]; rfl

theorem reply_decoded_inj {s : State} {port port' : CodecPort}
    (h : (.next (s.reply (.decoded port)) : Result State) = .next (s.reply (.decoded port'))) : port = port' := by
  simpa [State.reply] using h

/-- Clearing `word0[14:4]` keeps the average flag and both parts of the time. -/
theorem fields_clear_index (word0 : Word) :
    averageFlag (word0 &&& 0xFFFF800F#32) = averageFlag word0 ∧
      timeLoOf (word0 &&& 0xFFFF800F#32) = timeLoOf word0 ∧
      timeHiOf (word0 &&& 0xFFFF800F#32) = timeHiOf word0 := by
  refine ⟨?_, ?_, ?_⟩
  · simp [averageFlag]
  · rw [timeLoOf, BitVec.extractLsb'_and]
    exact BitVec.and_allOnes
  · rw [timeHiOf, BitVec.extractLsb'_and]
    exact BitVec.and_allOnes

/-- Settles O9: the ports are `exec_decodeSample`'s, the record of an average sample takes the time and the magnitude
alone, and the time does not stand in `word0[14:4]`. -/
theorem averageRecordIgnoresTheIndexBits : Obligations.AverageRecordIgnoresTheIndexBits := by
  intro word0 word0' word1 s s' port port' havg hmask hn hn'
  obtain ⟨ha, hlo, hhi⟩ := fields_clear_index word0
  obtain ⟨ha', hlo', hhi'⟩ := fields_clear_index word0'
  rw [hmask] at ha hlo hhi
  obtain rfl := reply_decoded_inj ((exec_decodeSample word0 word1 s).symm.trans hn)
  obtain rfl := reply_decoded_inj ((exec_decodeSample word0' word1 s').symm.trans hn')
  have h : averageFlag word0 = true := havg
  have h' : averageFlag word0' = true := ha'.symm.trans (ha.trans h)
  simp [CodecPort.record, codecPort, h, h', hlo.symm.trans hlo', hhi.symm.trans hhi']

end Sys2Proof.Machine
end

section
/-! What a step runs, and why one is refused (30_encoding.md R97, 60_exceptions.md R224). -/

namespace Sys2Proof.Machine

/-! ## The operation a step runs -/

/-- The marker predicate in the source's mask form (41_marker.md R140): `item[31:0]` is all of an item that the mask
keeps. -/
theorem isMarker_iff_mask (x : Item) : isMarker x = true ↔ x &&& 0xFFFFFFFF#64 = 0xFFFFFFFF#64 := by
  simp [isMarker, markerLow, ← BitVec.toNat_inj, Nat.and_two_pow_sub_one_eq_mod x.toNat 32]

theorem decode_padItem_marker {x : Item} (h : Nat) (hx : isMarker x = true) :
    decode (.padItem h x) = .padMarker h (ticksOf x) := if_pos hx

theorem decode_padItem_data {x : Item} (h : Nat) (hx : ¬ isMarker x = true) :
    decode (.padItem h x) = .padData h x := if_neg hx

theorem decode_tagItem_marker {x : Item} (h : Nat) (hx : isMarker x = true) :
    decode (.tagItem h x) = .tagMarker h (ticksOf x) := if_pos hx

theorem decode_tagItem_data {x : Item} (h : Nat) (hx : ¬ isMarker x = true) :
    decode (.tagItem h x) = .tagData h x := if_neg hx

/-- A scheduled turn of a PAD in a call runs the operation selected there. -/
theorem step_padSelect {s : State} {h : Nat} {p : Pad} {c : PadCall} {q : Presented} {rest : List Turn}
    (hc : padInCall s h p c) (hs : s.schedule = .agent (.pad h) :: rest) (hq : padSelect h p c = .op q) :
    step s = exec (decode q) { s with schedule := rest } :=
  (step_scheduled hs).trans (padTurn_op (s := { s with schedule := rest }) hc hq)

/-- A scheduled turn of a TAG in a call runs the operation selected there. -/
theorem step_tagSelect {s : State} {h : Nat} {t : Tag} {c : TagCall} {q : Presented} {rest : List Turn}
    (hc : tagInCall s h t c) (hs : s.schedule = .agent (.tag h) :: rest) (hq : tagSelect h c = .op q) :
    step s = exec (decode q) { s with schedule := rest } :=
  (step_scheduled hs).trans (tagTurn_op (s := { s with schedule := rest }) hc hq)

/-- Settles O48: a scheduled request is the move taken, and that move is `exec` of its decoding. -/
theorem stepRunsTheHostsRequest : Obligations.StepRunsTheHostsRequest := fun _ _ _ hs => step_scheduled hs

/-- Settles O49: with room, an owed filler is selected before the item, and the item decodes by the marker predicate. -/
theorem stepRunsTheSelectedPadOperation : Obligations.StepRunsTheSelectedPadOperation := by
  intro s h p c rest hc hs hroom
  refine ⟨fun howes => step_padSelect hc hs (padSelect_owes howes hroom), fun howes x hx => ?_⟩
  have hstep := step_padSelect hc hs (padSelect_item howes hroom hx)
  rw [ne_eq, ← isMarker_iff_mask]
  exact ⟨fun hm => by rw [hstep, decode_padItem_marker h hm, ticksOf],
    fun hm => by rw [hstep, decode_padItem_data h hm]⟩

/-- Settles O50: below `N` the item is selected, and it decodes by the marker predicate. -/
theorem stepRunsTheSelectedTagOperation : Obligations.StepRunsTheSelectedTagOperation := by
  intro s h t c x rest hc hs hi hx
  have hstep := step_tagSelect hc hs (tagSelect_item hi hx)
  rw [ne_eq, ← isMarker_iff_mask]
  exact ⟨fun hm => by rw [hstep, decode_tagItem_marker h hm, ticksOf],
    fun hm => by rw [hstep, decode_tagItem_data h hm]⟩

/-! ## No step is refused as `notSelected` -/

/-- What a PAD was refused for once, it is refused for again; `onPad` itself adds `notConstructed` alone. -/
theorem State.onPad_notSelected {s : State} {h : Nat} {act : Pad → Result State}
    (hr : s.onPad h act = .refused .notSelected) (hact : ∀ p, act p ≠ .refused .notSelected) :
    ∃ p ∈ s.pads, p.refused = some .notSelected := by
  unfold State.onPad at hr
  split at hr
  · cases hr
  · rename_i p hp
    split at hr
    · exact ⟨p, List.mem_of_getElem? hp, Host.Outcome.refused.inj hr ▸ ‹_›⟩
    · exact absurd hr (hact p)

/-- The same of a TAG. -/
theorem State.onTag_notSelected {s : State} {h : Nat} {act : Tag → Result State}
    (hr : s.onTag h act = .refused .notSelected) (hact : ∀ t, act t ≠ .refused .notSelected) :
    ∃ t ∈ s.tags, t.refused = some .notSelected := by
  unfold State.onTag at hr
  split at hr
  · cases hr
  · rename_i t ht
    split at hr
    · exact ⟨t, List.mem_of_getElem? ht, Host.Outcome.refused.inj hr ▸ ‹_›⟩
    · exact absurd hr (hact t)

theorem unlessBusy_ne_notSelected {busy : Bool} {res : Result State} (hres : res ≠ .refused .notSelected) :
    unlessBusy busy res ≠ .refused .notSelected := by
  unfold unlessBusy
  split
  · nofun
  · exact hres

theorem State.ifFits_ne_notSelected {s : State} {inp : InWindow} {out : OutSpec} {res : Result State}
    (hres : res ≠ .refused .notSelected) : s.ifFits inp out res ≠ .refused .notSelected := by
  unfold State.ifFits
  split
  · nofun
  · split
    · exact hres
    · nofun

/-- Some PAD or TAG was stopped by the refusal `r`. -/
def State.stoppedBy (s : State) (r : Refusal) : Prop :=
  (∃ p ∈ s.pads, p.refused = some r) ∨ ∃ t ∈ s.tags, t.refused = some r

/-- A request of the host is refused as `notSelected` only where a PAD or TAG was before. -/
theorem exec_decode_host_notSelected {s : State} {q : Request}
    (hr : exec (decode (.host q)) s = .refused .notSelected) : s.stoppedBy .notSelected := by
  cases q with
  | dec word0 word1 => cases (exec_decodeSample word0 word1 s).symm.trans hr
  | det x =>
    simp only [decode] at hr
    split at hr <;> cases hr
  | padConstruct rate =>
    simp only [decode, exec, execPadConstruct] at hr
    split at hr <;> cases hr
  | padCall h inp out =>
    exact .inl (State.onPad_notSelected hr fun _ =>
      unlessBusy_ne_notSelected (State.ifFits_ne_notSelected nofun))
  | padStatus h => exact .inl (State.onPad_notSelected hr fun _ => unlessBusy_ne_notSelected nofun)
  | tagConstruct => cases hr
  | tagCall h inp out =>
    exact .inr (State.onTag_notSelected hr fun _ =>
      unlessBusy_ne_notSelected (State.ifFits_ne_notSelected nofun))
  | tagStatus h => exact .inr (State.onTag_notSelected hr fun _ => unlessBusy_ne_notSelected nofun)

/-- A write followed by what is not refused is not refused. -/
theorem OutWindow.writeThen_ne_refused {w : OutWindow} {k : Nat} {x : Item} {act : OutWindow → Result State}
    {r : Refusal} (hact : ∀ w', act w' ≠ .refused r) : w.writeThen k x act ≠ .refused r := by
  unfold OutWindow.writeThen
  split
  · exact hact _
  · nofun

/-- The operation selected in a PAD call is not refused: what the PAD reads encodes it, so `padStep` lets it run. -/
theorem exec_padSelect_ne_refused {s : State} {h : Nat} {p : Pad} {c : PadCall} {q : Presented}
    (hc : padInCall s h p c) (hq : padSelect h p c = .op q) (r : Refusal) : exec (decode q) s ≠ .refused r := by
  obtain ⟨hwf, _, henc⟩ := encodeOfDecodeIsTheOperand q
  have hstep := State.padStep_of hc (hq.trans (congrArg _ henc.symm)) hwf
  obtain he | ⟨ticks, he⟩ | ⟨x, he⟩ := decode_of_padSelect hq <;> rw [he] at hstep ⊢
  · exact (hstep _).trans_ne (OutWindow.writeThen_ne_refused nofun)
  · exact (hstep _).trans_ne nofun
  · exact (hstep _).trans_ne (OutWindow.writeThen_ne_refused nofun)

/-- The operation selected in a TAG call is not refused: what the TAG reads encodes it, so `tagStep` lets it run. -/
theorem exec_tagSelect_ne_refused {s : State} {h : Nat} {t : Tag} {c : TagCall} {q : Presented}
    (hc : tagInCall s h t c) (hq : tagSelect h c = .op q) (r : Refusal) : exec (decode q) s ≠ .refused r := by
  obtain ⟨hwf, _, henc⟩ := encodeOfDecodeIsTheOperand q
  have hstep := State.tagStep_of hc (hq.trans (congrArg _ henc.symm)) hwf
  obtain ⟨ticks, he⟩ | ⟨x, he⟩ := decode_of_tagSelect hq <;> rw [he] at hstep ⊢
  · exact (hstep _).trans_ne nofun
  · exact (hstep _).trans_ne (OutWindow.writeThen_ne_refused nofun)

/-- A turn of a PAD is refused for the reason that stopped it before, and for no other. -/
theorem padTurn_refused {s : State} {h : Nat} {r : Refusal} (hr : padTurn h s = .refused r) :
    ∃ p ∈ s.pads, p.refused = some r := by
  unfold padTurn at hr
  split at hr
  · cases hr
  · rename_i p hp
    split at hr
    · exact ⟨p, List.mem_of_getElem? hp, Host.Outcome.refused.inj hr ▸ ‹_›⟩
    · split at hr
      · cases hr
      · split at hr
        · exact absurd hr (exec_padSelect_ne_refused ⟨hp, ‹_›, ‹_›⟩ ‹_› r)
        · cases hr
        · cases hr

/-- A turn of a TAG is refused for the reason that stopped it before, and for no other. -/
theorem tagTurn_refused {s : State} {h : Nat} {r : Refusal} (hr : tagTurn h s = .refused r) :
    ∃ t ∈ s.tags, t.refused = some r := by
  unfold tagTurn at hr
  split at hr
  · cases hr
  · rename_i t ht
    split at hr
    · exact ⟨t, List.mem_of_getElem? ht, Host.Outcome.refused.inj hr ▸ ‹_›⟩
    · split at hr
      · cases hr
      · split at hr
        · exact absurd hr (exec_tagSelect_ne_refused ⟨ht, ‹_›, ‹_›⟩ ‹_› r)
        · cases hr
        · cases hr

theorem writePadIn_ne_refused (h k : Nat) (x : Item) (s : State) (r : Refusal) : writePadIn h k x s ≠ .refused r := by
  unfold writePadIn
  repeat' split
  all_goals nofun

theorem writeTagIn_ne_refused (h k : Nat) (x : Item) (s : State) (r : Refusal) : writeTagIn h k x s ≠ .refused r := by
  unfold writeTagIn
  repeat' split
  all_goals nofun

/-- A move is refused as `notSelected` only where a PAD or TAG was before. -/
theorem takeTurn_notSelected {m : Turn} {s : State} (hr : takeTurn m s = .refused .notSelected) :
    s.stoppedBy .notSelected := by
  match m with
  | .host q => exact exec_decode_host_notSelected hr
  | .agent (.pad h) => exact .inl (padTurn_refused hr)
  | .agent (.tag h) => exact .inr (tagTurn_refused hr)
  | .hostWriteIn (.pad h) k x => exact absurd hr (writePadIn_ne_refused h k x s _)
  | .hostWriteIn (.tag h) k x => exact absurd hr (writeTagIn_ne_refused h k x s _)

/-- Settles O51: a step is one move, and a move is refused so only where a PAD or TAG was before. -/
theorem noStepIsRefusedAsNotSelected : Obligations.NoStepIsRefusedAsNotSelected := by
  intro s hpads htags hr
  unfold step at hr
  split at hr
  · obtain ⟨p, hp, hpr⟩ | ⟨t, ht, htr⟩ := takeTurn_notSelected hr
    · exact hpads p hp hpr
    · exact htags t ht htr
  · cases hr

end Sys2Proof.Machine
end

section
/-! The host program PAD.FLUSH (30_encoding.md R106): what a call with an empty input does, and the calls one after the
other. -/

namespace Sys2Proof.Machine

/-! ## Paying fillers -/

theorem Pad.pay_toInt {p : Pad} {d : Nat} (hd : (d : Int) ≤ p.pendingPadding.toInt) :
    (p.pay d).pendingPadding.toInt = p.pendingPadding.toInt - d := by
  have hlt := p.pendingPadding.two_mul_toInt_lt
  rw [Pad.pay_pendingPadding, BitVec.toInt_sub, BitVec.toInt_ofNat', Int.sub_bmod_bmod,
    Int.bmod_eq_of_le (by omega) (by omega)]

@[simp] theorem Pad.pay_zero (p : Pad) : p.pay 0 = p := by
  simp [Pad.pay]

theorem Pad.pay_pay (p : Pad) (a b : Nat) : (p.pay a).pay b = p.pay (a + b) := by
  simp [Pad.pay, BitVec.ofNat_add, BitVec.sub_sub]

theorem Pad.drained_eq_zero_iff {p : Pad} {room : Nat} :
    p.drained room = 0 ↔ p.pendingPadding.toInt ≤ 0 ∨ room = 0 := by
  unfold Pad.drained
  omega

/-- One filler paid and one slot taken leave one filler less to write. -/
theorem Pad.drained_pay_one {p : Pad} {room d : Nat} (hd : p.drained room = d + 1) :
    (p.pay 1).drained (room - 1) = d := by
  unfold Pad.drained at hd ⊢
  rw [Pad.pay_toInt (by omega)]
  omega

/-- Paying puts no call in place, so there is none to take away. -/
theorem Pad.pay_idle {p : Pad} (hcall : p.call = none) (d : Nat) : { p.pay d with call := none } = p.pay d := by
  cases p
  cases hcall
  rfl

/-! ## Turns -/

/-- A run whose first turn goes on is the run of the other turns from there. -/
theorem runTurns_cons_of {t : Turn} {ts : List Turn} {s m : State}
    (hm : takeTurn t { s with schedule := ts } = .next m) : runTurns (t :: ts) s = runTurns ts m := by
  have hfirst : step { s with schedule := t :: ts } = .next m := (step_scheduled rfl).trans hm
  obtain rfl : m.schedule = ts := takeTurn_keeps_schedule hm
  rw [runTurns, List.length_cons, runSteps, hfirst]
  rfl

theorem runTurns_pad_of {h : Nat} {ts : List Turn} {s m : State}
    (hm : padTurn h { s with schedule := ts } = .next m) : runTurns (.agent (.pad h) :: ts) s = runTurns ts m :=
  runTurns_cons_of hm

/-- A PAD between calls holds its state, whatever number of turns it gets (60_exceptions.md R232). -/
theorem runTurns_idle {s : State} {h : Nat} {p : Pad} (hi : idlePad s h p) (k : Nat) :
    runTurns (List.replicate k (.agent (.pad h))) s = .next { s with schedule := [] } := by
  induction k generalizing s with
  | zero => rfl
  | succ k ih =>
    have hi' : idlePad { s with schedule := List.replicate k (.agent (.pad h)) } h p := hi
    exact (runTurns_pad_of (padTurn_idle hi')).trans (ih hi')

/-- PAD `h`, put in place in the call `c`, is in that call. -/
theorem padInCall_setPad {s : State} {h : Nat} {p q : Pad} {c : PadCall} (hp : s.pads[h]? = some p)
    (hr : q.refused = none) : padInCall (s.setPad h { q with call := some c }) h { q with call := some c } c :=
  ⟨State.setPad_self hp, rfl, hr⟩

/-- The call after PAD.DRAIN: a filler in slot `o`, and the next slot (42_padding.md R154). -/
def PadCall.fill (c : PadCall) : PadCall :=
  { c with o := c.o + 1, out := { c.out with slots := Memory.write c.out.slots c.o filler } }

/-- The turn of a PAD that owes a filler and has room pays it. -/
theorem padTurn_drain {s : State} {h : Nat} {p : Pad} {c : PadCall} (hc : padInCall s h p c)
    (ho : 0 < p.pendingPadding.toInt) (hcap : c.o < c.out.cap) :
    padTurn h s = .next (s.setPad h { p.pay 1 with call := some c.fill }) :=
  (padTurn_op hc (padSelect_owes ho hcap)).trans (execPadDrain_of hc ho hcap)

/-- A call that has consumed its input and has no filler to write is at its end. -/
theorem padSelect_nothing_left {h : Nat} {p : Pad} {c : PadCall} (hend : c.inp.items.length ≤ c.i)
    (hd : p.drained (c.out.cap - c.o) = 0) : padSelect h p c = .finish := by
  rw [Pad.drained_eq_zero_iff] at hd
  obtain ⟨ho, hroom, _⟩ | ⟨_, _, x, hx, _⟩ | ⟨hs, _⟩ := padSelect_cases h p c
  · omega
  · have := (List.getElem?_eq_some_iff.1 hx).1
    omega
  · exact hs

/-- In `s'` a call on PAD `h` of `s` has returned: the PAD is `p`, between calls, and the newest reply is a PAD call's
that produced this many items. -/
def PadReturned (s s' : State) (h : Nat) (p : Pad) (produced : Nat) : Prop :=
  idlePad s' h p ∧ s'.lastProduced = some produced ∧ s'.maxCall = s.maxCall

/-- A call that has consumed its input writes the fillers it owes, as many as fit, and returns (42_padding.md R151,
R154, R159); the turns it has left change nothing. -/
theorem runTurns_drain {s : State} {h d : Nat} {p : Pad} {c : PadCall} (hc : padInCall s h p c)
    (hend : c.inp.items.length ≤ c.i) (hd : p.drained (c.out.cap - c.o) = d) (k : Nat) :
    ∃ s', runTurns (List.replicate (k + d + 1) (.agent (.pad h))) s = .next s' ∧
      PadReturned s s' h { p.pay d with call := none } (c.o + d) := by
  induction d generalizing s p c with
  | zero =>
    have hc' : padInCall { s with schedule := List.replicate k (.agent (.pad h)) } h p c := hc
    have hi : idlePad (s.finishPad h p c) h { p with call := none } := ⟨State.setPad_self hc.1, rfl, hc.2.2⟩
    have hlast := padTurn_finish hc' (padSelect_nothing_left hend hd)
    rw [Pad.pay_zero]
    exact ⟨_, (runTurns_pad_of hlast).trans (runTurns_idle hi k), hi, rfl, rfl⟩
  | succ d ih =>
    have howed := mt Pad.drained_eq_zero_iff.2 (by omega : p.drained (c.out.cap - c.o) ≠ 0)
    have hc' : padInCall { s with schedule := List.replicate (k + d + 1) (.agent (.pad h)) } h p c := hc
    have hfirst := padTurn_drain hc' (by omega) (by omega)
    have hleft : (p.pay 1).drained (c.out.cap - c.fill.o) = d := by
      rw [← Pad.drained_pay_one hd]
      rfl
    obtain ⟨s', hrun, hi, hlast, hmax⟩ := ih (padInCall_setPad (q := p.pay 1) (c := c.fill) hc'.1 hc.2.2) hend hleft
    refine ⟨s', (runTurns_pad_of hfirst).trans hrun, ?_, ?_, hmax⟩
    · rwa [Nat.add_comm, ← Pad.pay_pay]
    · rwa [Nat.add_comm d, ← Nat.add_assoc]

/-- PAD.CALL with an empty input writes the fillers owed, as many as fit, and returns within its turns. -/
theorem padCallRun_empty {s : State} {h : Nat} {p : Pad} {inp : InWindow} {out : OutSpec} (hi : idlePad s h p)
    (hitems : inp.items = []) (hf : fits s inp out = true) :
    ∃ s', padCallRun s h inp out = .next s' ∧
      PadReturned s s' h (p.pay (p.drained out.cap)) (p.drained out.cap) := by
  have hle : p.drained out.cap ≤ out.cap := min_le_right _ _
  have hturns : inp.items.length + out.cap + 1 = out.cap - p.drained out.cap + p.drained out.cap + 1 := by
    rw [hitems, Nat.sub_add_cancel hle, List.length_nil, Nat.zero_add]
  have hi' : idlePad { s with schedule := List.replicate (inp.items.length + out.cap + 1) (.agent (.pad h)) } h p := hi
  have hstart : takeTurn (.host (.padCall h inp out)) _ = .next _ := execPadCall_of hi' hf
  have hc := padInCall_setPad (c := PadCall.start inp out) hi'.1 hi.2.2
  obtain ⟨s', hrun, hreturned⟩ : ∃ s', runTurns _ _ = .next s' ∧
      PadReturned s s' h { p.pay (p.drained out.cap) with call := none } (0 + p.drained out.cap) :=
    runTurns_drain hc (by simp [hitems]) rfl (out.cap - p.drained out.cap)
  rw [Nat.zero_add, Pad.pay_idle hi.2.1] at hreturned
  refine ⟨s', ?_, hreturned⟩
  rw [padCallRun, runTurns_cons_of hstart, hturns]
  exact hrun

theorem padFlush_succ {fuel h cap n : Nat} {s s' : State}
    (hrun : padCallRun s h { items := [], base := none } { cap := cap, base := none } = .next s')
    (hn : s'.lastProduced = some n) :
    padFlush (fuel + 1) h cap s = if n = 0 then some s' else padFlush fuel h cap s' := by
  simp [padFlush, hrun, hn]

/-- With nothing owed, the first call is the last. -/
theorem padFlush_of_nothing_owed {s : State} {h cap : Nat} {p : Pad} (hi : idlePad s h p)
    (hf : fits s { items := [], base := none } { cap := cap, base := none } = true)
    (hle : p.pendingPadding.toInt ≤ 0) (fuel : Nat) :
    ∃ s', padFlush (fuel + 1) h cap s = some s' ∧ s'.pads[h]? = some p := by
  obtain ⟨s', hrun, hi', hlast, _⟩ := padCallRun_empty hi rfl hf
  have hzero : p.drained cap = 0 := Pad.drained_eq_zero_iff.2 (.inl hle)
  rw [hzero] at hi' hlast
  exact ⟨s', by rw [padFlush_succ hrun hlast, if_pos rfl], by simpa using hi'.1⟩

/-- Settles O33, by induction on `k`: a call writes `cap` fillers or all that are owed, and the call that finds none
owed is the last. -/
theorem flushDrainsWhatIsOwed : Obligations.FlushDrainsWhatIsOwed := by
  intro s h p cap k hi hcap hf howed
  induction k generalizing s p with
  | zero =>
    have hle : p.pendingPadding.toInt ≤ 0 := by simpa using howed
    obtain ⟨s', hflush, hp⟩ := padFlush_of_nothing_owed hi hf hle 0
    exact ⟨s', p, hflush, hp, (min_eq_left hle).symm, rfl⟩
  | succ k ih =>
    obtain hle | hpos := le_or_gt p.pendingPadding.toInt 0
    · obtain ⟨s', hflush, hp⟩ := padFlush_of_nothing_owed hi hf hle (k + 1)
      exact ⟨s', p, hflush, hp, (min_eq_left hle).symm, rfl⟩
    · obtain ⟨s1, hrun, hi1, hlast, hmax⟩ := padCallRun_empty hi rfl hf
      have hk : 0 ≤ (k * cap : Int) := by positivity
      have hd : (p.drained cap : Int) = min p.pendingPadding.toInt cap := by
        unfold Pad.drained
        omega
      have hpay := p.pay_toInt (d := p.drained cap) (by omega)
      rw [Nat.cast_succ, add_mul, one_mul] at howed
      obtain ⟨s', p', hflush, hp, hpend, hsame⟩ := ih s1 (p.pay (p.drained cap)) hi1
        (by rw [fits, hmax]; exact hf) (by omega)
      have hne : p.drained cap ≠ 0 := by omega
      refine ⟨s', p', ?_, hp, by omega, hsame⟩
      rw [padFlush_succ hrun hlast, if_neg hne, hflush]

end Sys2Proof.Machine
end

section
/-! CODEC (40_codec.md): the records of R122 and R123, the ports of R126 in the source's C form, and a stream of words
read as pairs (R124). -/

namespace Sys2Proof.Machine

/-! ## The records -/

/-- Settles O6: the average flag selects DEC.FFT, whose record widens the fields of the two words. -/
theorem decFftGivesTheFftBinRecord : Obligations.DecFftGivesTheFftBinRecord := by
  intro word0 word1 s havg
  have hdecode := decodeSample_of_fft havg word1
  have hexec := exec_decodeSample word0 word1 s
  rw [hdecode, show averageFlag word0 = false from havg] at hexec
  exact ⟨_, hdecode, hexec, rfl, rfl⟩

/-- Settles O7: the average flag selects DEC.AVG, whose record takes the time and the swapped halves of `word1`. -/
theorem decAvgGivesTheAverageRecord : Obligations.DecAvgGivesTheAverageRecord := by
  intro word0 word1 s havg
  have hdecode := decodeSample_of_average havg word1
  have hexec := exec_decodeSample word0 word1 s
  rw [hdecode, show averageFlag word0 = true from havg] at hexec
  exact ⟨_, hdecode, hexec, rfl, rfl⟩

/-! ## The ports in the source's C form (30_encoding.md R96) -/

/-- A mask of `n` ones keeps the bits below `n`. -/
theorem getLsbD_and_mask {mask : Word} {n : Nat} (hmask : mask = BitVec.ofNat 32 (2 ^ n - 1)) (w : Word) (i : Nat) :
    (w &&& mask).getLsbD i = (decide (i < n) && w.getLsbD i) := by
  rw [hmask, BitVec.getLsbD_and, BitVec.getLsbD_ofNat, Nat.testBit_two_pow_sub_one]
  by_cases hi : i < 32
  · simp [hi, Bool.and_comm]
  · simp [hi, BitVec.getLsbD_of_ge w i (by omega)]

theorem codecTime_eq_shifts (word0 : Word) :
    (codecTime (timeHiOf word0) (timeLoOf word0)).setWidth 32 = ((word0 &&& 0xF#32) <<< 16) ||| (word0 >>> 16) := by
  apply BitVec.eq_of_getLsbD_eq
  intro i hi
  rw [BitVec.getLsbD_setWidth, codecTime_bit, BitVec.getLsbD_or, BitVec.getLsbD_shiftLeft,
    getLsbD_and_mask (mask := 0xF#32) (n := 4) rfl]
  by_cases h16 : i < 16
  · simp [timeLoOf, hi, h16]
  · simp [timeHiOf, hi, h16, BitVec.getLsbD_of_ge word0 (16 + i) (by omega)]

theorem indexOf_eq_shift (word0 : Word) : (indexOf word0).setWidth 32 = (word0 >>> 4) &&& 0x7FF#32 := by
  apply BitVec.eq_of_getLsbD_eq
  intro i hi
  rw [getLsbD_and_mask (mask := 0x7FF#32) (n := 11) rfl]
  simp [indexOf, hi]

theorem lowHalf_eq_setWidth (word1 : Word) : lowHalf word1 = word1.setWidth 16 := rfl

theorem highHalf_eq_shift (word1 : Word) : highHalf word1 = (word1 >>> 16).setWidth 16 := rfl

theorem magnitude_eq_shifts (word1 : Word) :
    magnitude (highHalf word1) (lowHalf word1) = (word1 >>> 16) ||| ((word1 &&& 0xFFFF#32) <<< 16) := by
  apply BitVec.eq_of_getLsbD_eq
  intro i hi
  rw [magnitude_bit, BitVec.getLsbD_or, BitVec.getLsbD_shiftLeft,
    getLsbD_and_mask (mask := 0xFFFF#32) (n := 16) rfl]
  by_cases h16 : i < 16
  · simp [highHalf, h16]
  · simp [lowHalf, hi, h16, BitVec.getLsbD_of_ge word1 (16 + i) (by omega)]

/-- Settles O8: the ports are `exec_decodeSample`'s, each in its C form. -/
theorem codecDrivesEveryPortForEveryPair : Obligations.CodecDrivesEveryPortForEveryPair := fun word0 word1 s =>
  ⟨_, exec_decodeSample word0 word1 s, rfl, codecTime_eq_shifts word0, indexOf_eq_shift word0,
    lowHalf_eq_setWidth word1, highHalf_eq_shift word1, magnitude_eq_shifts word1⟩

/-! ## A stream of words -/

theorem decodeStream_cons_cons_of_ok {word0 word1 : Word} {rest : List Word} {is : List Instr}
    (h : decodeStream rest = .ok is) :
    decodeStream (word0 :: word1 :: rest) = .ok (decodeSample word0 word1 :: is) := by
  rw [decodeStream, h]

theorem decodeStream_cons_cons_of_error {word0 word1 : Word} {rest : List Word} {e : StreamError}
    (h : decodeStream rest = .error e) : decodeStream (word0 :: word1 :: rest) = .error e := by
  rw [decodeStream, h]

/-- The `k`-th operation of `is` is the decoding of the words `2k` and `2k + 1` of `ws`. -/
def DecodedAsPairs (ws : List Word) (is : List Instr) : Prop :=
  ∀ k a b, ws[2 * k]? = some a → ws[2 * k + 1]? = some b → is[k]? = some (decode (.host (.dec a b)))

theorem DecodedAsPairs.cons {ws : List Word} {is : List Instr} (h : DecodedAsPairs ws is) (word0 word1 : Word) :
    DecodedAsPairs (word0 :: word1 :: ws) (decodeSample word0 word1 :: is) := by
  intro k a b ha hb
  cases k with
  | zero =>
    obtain rfl : word0 = a := by simpa using ha
    obtain rfl : word1 = b := by simpa using hb
    rfl
  | succ k => exact h k a b ha hb

theorem decodeStream_even (n : Nat) (ws : List Word) (hlen : ws.length = 2 * n) :
    ∃ is, decodeStream ws = .ok is ∧ is.length = n ∧ DecodedAsPairs ws is := by
  induction n generalizing ws with
  | zero =>
    obtain rfl := List.length_eq_zero_iff.1 hlen
    exact ⟨[], rfl, rfl, nofun⟩
  | succ n ih =>
    match ws with
    | word0 :: word1 :: rest =>
      obtain ⟨is, hok, hcount, hpairs⟩ := ih rest (by simpa [Nat.mul_succ] using hlen)
      exact ⟨_, decodeStream_cons_cons_of_ok hok, congrArg (· + 1) hcount, hpairs.cons word0 word1⟩

theorem decodeStream_odd (n : Nat) (ws : List Word) (hlen : ws.length = 2 * n + 1) :
    decodeStream ws = .error .loneWord := by
  induction n generalizing ws with
  | zero =>
    obtain ⟨word0, rfl⟩ := List.length_eq_one_iff.1 hlen
    rfl
  | succ n ih =>
    match ws with
    | word0 :: word1 :: rest =>
      exact decodeStream_cons_cons_of_error (ih rest (by simpa [Nat.mul_succ] using hlen))

/-- Settles O5, by induction on the number of pairs: each takes two words off the front of the stream. -/
theorem wordStreamIsDecodedAsPairs : Obligations.WordStreamIsDecodedAsPairs :=
  fun ws n => ⟨decodeStream_even n ws, decodeStream_odd n ws⟩

end Sys2Proof.Machine
end

section
/-! DET (41_marker.md): the predicate of R140, and what R141 and R142 report of every item. -/

namespace Sys2Proof.Machine

/-- Settles O4: the low 32 bits are what the mask keeps. -/
theorem markerPredicateIsTheMaskTest : Obligations.MarkerPredicateIsTheMaskTest := isMarker_iff_mask

theorem decode_det_marker {x : Item} (hx : isMarker x = true) :
    decode (.host (.det x)) = .detMarker (ticksOf x) := if_pos hx

theorem decode_det_data {x : Item} (hx : ¬ isMarker x = true) : decode (.host (.det x)) = .detData x := if_neg hx

theorem exec_detMarker (ticks : BitVec 32) (s : State) :
    exec (.detMarker ticks) s = .next (s.reply (.detected true ticks)) := rfl

theorem exec_detData (x : Item) (s : State) :
    exec (.detData x) s = .next (s.reply (.detected false (ticksOf x))) := rfl

/-- Settles O10: the mask test selects the marker row, which reports the item's timestamp. -/
theorem detMarkerReportsTheTimestamp : Obligations.DetMarkerReportsTheTimestamp := fun x s hmask =>
  ⟨decode_det_marker ((isMarker_iff_mask x).2 hmask), exec_detMarker (ticksOf x) s⟩

/-- Settles O11: an item that fails the mask test takes the data row, which drives the timestamp all the same. -/
theorem detDataReportsNoMarker : Obligations.DetDataReportsNoMarker := fun x s hmask =>
  ⟨decode_det_data (mt (isMarker_iff_mask x).1 hmask), exec_detData x s⟩

end Sys2Proof.Machine
end

section
/-! The gap (42_padding.md R157, R158): its three roundings on the magnitudes, and its range for a legal rate. -/

namespace Sys2Proof.Machine

/-! ## The constants as magnitudes -/

/-- The magnitude of `TICK_US`. -/
def tickUnits : Nat := 0x147AE147AE147B * 2 ^ 1025

/-- The magnitude of `SR_MAX`. -/
def srMaxUnits : Nat := 200000000000000 * 2 ^ 1074

theorem f64OfBits_tickUsBits : f64OfBits tickUsBits = .fin false tickUnits := by decide +kernel

theorem f64OfBits_usPerSBits : f64OfBits usPerSBits = .fin false (1000000 * unitsPerOne) := by decide +kernel

theorem f64OfBits_srMaxBits : f64OfBits srMaxBits = .fin false srMaxUnits := by decide +kernel

/-- `TICK_US` is the binary64 nearest to 10.24 (D2). -/
theorem tickUnits_nearestEven : NearestEven (1024 * 2 ^ 1074) 100 tickUnits := by
  have h : roundUnits (1024 * 2 ^ 1074) 100 = tickUnits := by decide +kernel
  exact h ▸ roundUnits_nearestEven _ 100 (by decide)

/-- A legal rate is finite, at most `SR_MAX`, and negative only as minus zero (D9, log 11). -/
theorem legalRate_iff {rate : BitVec 64} :
    legalRate rate = true ↔ ∃ neg sr, f64OfBits rate = .fin neg sr ∧ (neg = true → sr = 0) ∧ sr ≤ srMaxUnits := by
  unfold legalRate
  rw [f64OfBits_srMaxBits]
  cases f64OfBits rate with
  | nan | inf => simp
  | fin neg sr => cases neg <;> simp

/-! ## The three roundings of the gap -/

/-- The magnitude of `to_f64(diff) *f TICK_US`: the time difference in microseconds. -/
def gapMicros (diff : Nat) : Nat := roundUnits (diff * tickUnits) 1

/-- The magnitude of that times the rate, `sr` being the rate's own magnitude. -/
def gapScaled (diff sr : Nat) : Nat := roundUnits (gapMicros diff * sr) unitsPerOne

/-- The magnitude of that over `US_PER_S`, which is the magnitude of `gapF64`. -/
def gapUnits (diff sr : Nat) : Nat := roundUnits (gapScaled diff sr) 1000000

/-- The magnitude of a gap rounded to the nearest integer, a tie to the larger one. -/
def gapNat (diff sr : Nat) : Nat := (2 * gapUnits diff sr + unitsPerOne) / (2 * unitsPerOne)

section
variable {diff diff' sr sr' : Nat} (hd : diff ≤ diff') (hs : sr ≤ sr')
include hd

theorem gapMicros_mono : gapMicros diff ≤ gapMicros diff' := roundUnits_mono 1 (by decide) (Nat.mul_le_mul_right _ hd)

include hs

theorem gapScaled_mono : gapScaled diff sr ≤ gapScaled diff' sr' :=
  roundUnits_mono _ unitsPerOne_pos (Nat.mul_le_mul (gapMicros_mono hd) hs)

theorem gapUnits_mono : gapUnits diff sr ≤ gapUnits diff' sr' := roundUnits_mono _ (by decide) (gapScaled_mono hd hs)

theorem gapNat_mono : gapNat diff sr ≤ gapNat diff' sr' :=
  Nat.div_le_div_right (Nat.add_le_add_right (Nat.mul_le_mul_left 2 (gapUnits_mono hd hs)) _)

end

/-- The last row of the spec's gap table (R158): nothing overflows there. -/
theorem gap_at_largest :
    gapMicros (2 ^ 32 - 1) < overflowUnits ∧ gapScaled (2 ^ 32 - 1) srMaxUnits < overflowUnits ∧
      gapUnits (2 ^ 32 - 1) srMaxUnits < overflowUnits ∧
      gapNat (2 ^ 32 - 1) srMaxUnits = 8796093020160001024 := by
  decide +kernel

theorem roundF64_of_lt {neg : Bool} {num den : Nat} (h : roundUnits num den < overflowUnits) :
    roundF64 neg num den = .fin neg (roundUnits num den) := if_pos h

/-- A rate of zero gives the gap zero. -/
theorem gapUnits_zero_right (diff : Nat) : gapUnits diff 0 = 0 := by
  simp [gapUnits, gapScaled, roundUnits, divNearestEven]

/-- No time difference gives the gap zero. -/
theorem gapUnits_zero_left (sr : Nat) : gapUnits 0 sr = 0 := by
  simp [gapUnits, gapScaled, gapMicros, roundUnits, divNearestEven]

theorem gapNat_eq_zero {diff sr : Nat} (h : gapUnits diff sr = 0) : gapNat diff sr = 0 := by
  rw [gapNat, h, Nat.mul_zero, Nat.zero_add]
  exact Nat.div_eq_of_lt (by have := unitsPerOne_pos; omega)

section
variable {rate : BitVec 64} {neg : Bool} {sr : Nat} (hrate : f64OfBits rate = .fin neg sr) (hle : sr ≤ srMaxUnits)
include hrate hle

/-- Below the last row of the table no rounding overflows, so the gap is the finite value of R157. -/
theorem gapF64_eq (diff : BitVec 32) : gapF64 diff rate = .fin neg (gapUnits diff.toNat sr) := by
  obtain ⟨hmicros, hscaled, hunits, _⟩ := gap_at_largest
  have hd : diff.toNat ≤ 2 ^ 32 - 1 := Nat.le_pred_of_lt diff.isLt
  have h1 : f64Mul (f64OfNat diff.toNat) (.fin false tickUnits) = .fin false (gapMicros diff.toNat) := by
    have hscale : roundUnits (diff.toNat * unitsPerOne * tickUnits) unitsPerOne = gapMicros diff.toNat := by
      rw [gapMicros, ← roundUnits_scale _ 1 unitsPerOne unitsPerOne_pos, Nat.one_mul, Nat.mul_right_comm]
    have hlt := (gapMicros_mono hd).trans_lt hmicros
    rw [f64OfNat, f64Mul_fin, roundF64_of_lt (hscale ▸ hlt), hscale]
    rfl
  have h2 : f64Mul (.fin false (gapMicros diff.toNat)) (.fin neg sr) = .fin neg (gapScaled diff.toNat sr) := by
    rw [f64Mul_fin, roundF64_of_lt ((gapScaled_mono hd hle).trans_lt hscaled), Bool.false_bne]
    rfl
  have h3 : f64Div (.fin neg (gapScaled diff.toNat sr)) (.fin false (1000000 * unitsPerOne)) =
      .fin neg (gapUnits diff.toNat sr) := by
    have hscale : roundUnits (gapScaled diff.toNat sr * unitsPerOne) (1000000 * unitsPerOne) =
        gapUnits diff.toNat sr := roundUnits_scale _ _ _ unitsPerOne_pos
    have hlt := (gapUnits_mono hd hle).trans_lt hunits
    rw [f64Div_fin _ _ _ (Nat.mul_pos (by decide) unitsPerOne_pos), roundF64_of_lt (hscale ▸ hlt), hscale,
      Bool.bne_false]
  rw [gapF64, f64OfBits_tickUsBits, f64OfBits_usPerSBits, hrate, h1, h2, h3]

end

theorem gapNat_le {diff : BitVec 32} {sr : Nat} (hle : sr ≤ srMaxUnits) :
    gapNat diff.toNat sr ≤ 8796093020160001024 := by
  obtain ⟨_, _, _, hmax⟩ := gap_at_largest
  exact hmax ▸ gapNat_mono (Nat.le_pred_of_lt diff.isLt) hle

/-- A negative rate is minus zero, whose gap is zero: the sign is lost in the rounding to an integer. -/
theorem roundHalfAway_gapUnits {neg : Bool} {sr : Nat} (hneg : neg = true → sr = 0) (diff : Nat) :
    roundHalfAway (.fin neg (gapUnits diff sr)) = some (gapNat diff sr : Int) := by
  rw [roundHalfAway, ← gapNat]
  cases neg with
  | false => simp
  | true =>
    obtain rfl := hneg rfl
    simp [gapNat_eq_zero (gapUnits_zero_right diff)]

/-- `to_i64` is exact on every gap up to the last row of the table. -/
theorem toI64_toInt {x : F64} {k : Nat} (hx : roundHalfAway x = some (k : Int)) (hk : k ≤ 8796093020160001024) :
    (toI64 x).toInt = k := by
  rw [toI64, hx]
  dsimp only
  rw [if_pos (by omega), BitVec.toInt_ofInt, Int.bmod_eq_of_le (by omega) (by omega)]

/-- Settles O25: `gapF64_eq` gives the three roundings, and the gap at the largest difference and rate bounds the
others. -/
theorem gapOfALegalRateIsInRange : Obligations.GapOfALegalRateIsInRange := by
  intro diff rate hlegal
  obtain ⟨neg, sr, hrate, hneg, hle⟩ := legalRate_iff.1 hlegal
  have hgap := gapF64_eq hrate hle diff
  have hround := roundHalfAway_gapUnits hneg diff.toNat
  obtain ⟨hlow, hhigh⟩ := floor_add_half_bounds (gapUnits diff.toNat sr) unitsPerOne_pos
  rw [← hgap] at hround
  exact ⟨neg, sr, tickUnits, gapMicros diff.toNat, gapScaled diff.toNat sr, gapUnits diff.toNat sr,
    gapNat diff.toNat sr, hrate, tickUnits_nearestEven, roundUnits_nearestEven _ _ (by decide),
    roundUnits_nearestEven _ _ unitsPerOne_pos, roundUnits_nearestEven _ _ (by decide), hgap, hlow, hhigh, hround,
    toI64_toInt hround (gapNat_le hle), gapNat_le hle⟩

/-- The gap of a legal rate is not negative, and at most the last row of the table. -/
theorem gapItems_bounds {rate : BitVec 64} (hlegal : legalRate rate = true) (diff : BitVec 32) :
    0 ≤ (gapItems diff rate).toInt ∧ (gapItems diff rate).toInt ≤ maxGap := by
  obtain ⟨_, _, _, _, _, _, k, _, _, _, _, _, _, _, _, _, hk, hmax⟩ := gapOfALegalRateIsInRange diff rate hlegal
  rw [hk]
  exact ⟨Int.natCast_nonneg k, Int.ofNat_le.2 hmax⟩

theorem gapItems_zero {rate : BitVec 64} (hlegal : legalRate rate = true) : (gapItems 0#32 rate).toInt = 0 := by
  obtain ⟨neg, sr, hrate, hneg, hle⟩ := legalRate_iff.1 hlegal
  have hround := roundHalfAway_gapUnits hneg 0
  rw [gapNat_eq_zero (gapUnits_zero_left sr)] at hround
  rw [gapItems, gapF64_eq hrate hle]
  exact toI64_toInt hround (by decide)

/-! ## `pending_padding` -/

/-- After a marker `pending_padding` is the gap less the items since the last one, and nothing wraps (R156). -/
theorem Pad.gap_toInt {p : Pad} (hlegal : legalRate p.sampleRate = true) (ticks : BitVec 32) :
    (p.gap ticks).toInt = (gapItems (p.diff ticks) p.sampleRate).toInt - p.itemsSinceTag.toNat := by
  obtain ⟨hlow, hhigh⟩ := gapItems_bounds hlegal (p.diff ticks)
  have hitems : (p.itemsSinceTag.setWidth 64).toInt = p.itemsSinceTag.toNat := by
    have hlt := p.itemsSinceTag.isLt
    rw [BitVec.toInt_eq_toNat_of_lt] <;> rw [BitVec.toNat_setWidth_of_le (by decide)]
    omega
  have hlt := p.itemsSinceTag.isLt
  unfold maxGap at hhigh
  rw [Pad.gap, BitVec.toInt_sub, hitems, Int.bmod_eq_of_le (by omega) (by omega)]

theorem Pad.diff_of_first {p : Pad} (hfirst : p.lastTimestamp = 0#32) (ticks : BitVec 32) : p.diff ticks = 0#32 :=
  if_pos hfirst

theorem Pad.diff_of_later {p : Pad} (hlater : p.lastTimestamp ≠ 0#32) (ticks : BitVec 32) :
    p.diff ticks = ticks - p.lastTimestamp := if_neg hlater

/-- Settles O20: a first marker has no time difference, so its gap is zero. -/
theorem firstMarkerSeedsWithoutFiller : Obligations.FirstMarkerSeedsWithoutFiller := by
  intro s h p c t hc hlegal hfirst howes hroom hx
  refine ⟨_, _, execPadMarker_of hc howes hroom hx, State.setPad_self hc.1, ?_, rfl⟩
  calc (p.gap t).toInt
    _ = (gapItems 0#32 p.sampleRate).toInt - p.itemsSinceTag.toNat := by
      rw [Pad.gap_toInt hlegal, Pad.diff_of_first hfirst]
    _ = -(p.itemsSinceTag.toNat : Int) := by rw [gapItems_zero hlegal, Int.zero_sub]

/-- A call put in place or taken away leaves `pending_padding` and the rate. -/
theorem Pad.inRange.setCall {p : Pad} (hp : p.inRange) (c : Option PadCall) : { p with call := c }.inRange := hp

theorem Pad.fresh_inRange {rate : BitVec 64} (hlegal : legalRate rate = true) : (Pad.fresh rate).inRange :=
  ⟨hlegal, by simp, by simp [maxGap]⟩

/-- PAD.DRAIN lowers a positive number by one. -/
theorem Pad.inRange.pay_one {p : Pad} (hp : p.inRange) (howes : 0 < p.pendingPadding.toInt) : (p.pay 1).inRange := by
  obtain ⟨hlegal, hlow, hhigh⟩ := hp
  have hpay := p.pay_toInt (d := 1) (by omega)
  exact ⟨hlegal, by omega, by omega⟩

/-- PAD.MARKER sets the gap of a legal rate less a 32-bit count. -/
theorem Pad.inRange.absorb {p : Pad} (hp : p.inRange) (ticks : BitVec 32) : (p.absorb ticks).inRange := by
  obtain ⟨hlegal, _, _⟩ := hp
  have hgap := Pad.gap_toInt hlegal ticks
  obtain ⟨hlow, hhigh⟩ := gapItems_bounds hlegal (p.diff ticks)
  have hlt := p.itemsSinceTag.isLt
  rw [Pad.inRange, Pad.absorb_pendingPadding, hgap]
  exact ⟨hlegal, by omega, by omega⟩

/-- PAD.DATA counts the item only. -/
theorem Pad.inRange.count {p : Pad} (hp : p.inRange) : p.count.inRange := hp

/-- Every operation keeps every `pending_padding` in range. -/
theorem Effect.keeps_inRange {s s' : State} {i : Instr} (he : Effect s i s') (hI : ∀ p ∈ s.pads, p.inRange) :
    ∀ p ∈ s'.pads, p.inRange := by
  cases he with
  | read | tagConstruct | tagCall | tagMarker | tagData => exact hI
  | padConstruct rate hl => exact List.forall_mem_append.2 ⟨hI, List.forall_mem_singleton.2 (Pad.fresh_inRange hl)⟩
  | padCall h inp out p hi => exact forall_mem_set hI ((of_getElem? hI hi.1).setCall _)
  | padDrain h p c hc ho => exact forall_mem_set hI (((of_getElem? hI hc.1).pay_one ho).setCall _)
  | padMarker h ticks p c hc => exact forall_mem_set hI (((of_getElem? hI hc.1).absorb ticks).setCall _)
  | padData h x p c hc => exact forall_mem_set hI ((of_getElem? hI hc.1).count.setCall _)

/-- Every move keeps every `pending_padding` in range. -/
theorem takeTurn_keeps_inRange {m : Turn} {s s' : State} (hI : ∀ p ∈ s.pads, p.inRange)
    (hn : takeTurn m s = .next s') : ∀ p ∈ s'.pads, p.inRange := by
  rcases takeTurn_next hn with rfl | ⟨i, hx⟩ | ⟨h, p, c, hc, _, rfl⟩ | ⟨h, t, c, _, _, rfl⟩ |
    ⟨h, k, x, p, c, hc, _, rfl⟩ | ⟨h, k, x, t, c, _, _, rfl⟩
  · exact hI
  · exact (exec_effect hx).keeps_inRange hI
  · exact forall_mem_set hI ((of_getElem? hI hc.1).setCall _)
  · exact hI
  · exact forall_mem_set hI ((of_getElem? hI hc.1).setCall _)
  · exact hI

/-- Settles O55: a step is one move; PAD.DRAIN lowers a positive number and PAD.MARKER sets a gap of a legal rate less
a 32-bit count. -/
theorem everyStepKeepsPendingPaddingInRange : Obligations.EveryStepKeepsPendingPaddingInRange := by
  intro s s' hI hn
  obtain rfl | ⟨m, _, hm⟩ := step_next hn
  · exact hI
  · exact takeTurn_keeps_inRange (s := s.dropTurn) hI hm

end Sys2Proof.Machine
end

section
/-! PAD, operation by operation (42_padding.md R154 to R156, R159, R163): what each does, and when a call returns. -/

namespace Sys2Proof.Machine

/-! ## The operations -/

/-- A status read of a PAD in a call is refused (R163). -/
theorem execPadStatus_busy {s : State} {h : Nat} {p : Pad} {c : PadCall} (hc : padInCall s h p c) :
    execPadStatus h s = .refused .concurrentCall := by
  obtain ⟨hp, hcall, hr⟩ := hc
  simp [execPadStatus, State.onPad_of hp hr, unlessBusy, Pad.busy, hcall]

/-- Settles O13: the two answers of `unlessBusy`. -/
theorem padStatusReturnsTheRegisters : Obligations.PadStatusReturnsTheRegisters :=
  fun _ _ _ => ⟨execPadStatus_of, fun _ => execPadStatus_busy⟩

/-- Settles O17: the one slot written is slot `o`. -/
theorem padDrainWritesOneFiller : Obligations.PadDrainWritesOneFiller := fun _ _ _ c hc howes hroom =>
  ⟨Memory.write c.out.slots c.o filler, execPadDrain_of hc howes hroom, Memory.read_write_same _ _ _,
    fun k hk => Memory.read_write_other _ _ k _ hk⟩

/-- Settles O18: the one slot written is slot `o`. -/
theorem padDataCopiesTheItem : Obligations.PadDataCopiesTheItem := by
  intro s h p c x hc howes hroom hx hmask
  have hm : isMarker x = false := Bool.eq_false_iff.2 (mt (isMarker_iff_mask x).1 hmask)
  exact ⟨Memory.write c.out.slots c.o x, execPadData_of hc howes hroom hx hm, Memory.read_write_same _ _ _,
    fun k hk => Memory.read_write_other _ _ k _ hk⟩

/-- Settles O19: `Pad.absorb` is the change of the registers that R156 writes out. -/
theorem padMarkerComputesTheGap : Obligations.PadMarkerComputesTheGap :=
  fun _ _ _ _ _ hc howes hroom hx => execPadMarker_of hc howes hroom hx

/-! ## The turns of a call -/

/-- The call after PAD.MARKER: the next item (R156). -/
def PadCall.skip (c : PadCall) : PadCall := { c with i := c.i + 1 }

/-- The call after PAD.DATA: the item in slot `o`, and the next item and slot (R155). -/
def PadCall.copy (c : PadCall) (x : Item) : PadCall :=
  { c with i := c.i + 1, o := c.o + 1, out := { c.out with slots := Memory.write c.out.slots c.o x } }

/-- The turn of a PAD that owes nothing, has room and reads a marker computes the gap. -/
theorem padTurn_marker {s : State} {h : Nat} {p : Pad} {c : PadCall} {x : Item} (hc : padInCall s h p c)
    (howes : p.pendingPadding.toInt ≤ 0) (hroom : c.o < c.out.cap) (hx : c.inp.items[c.i]? = some x)
    (hm : isMarker x = true) :
    padTurn h s = .next (s.setPad h { p.absorb (ticksOf x) with call := some c.skip }) := by
  rw [padTurn_op hc (padSelect_item howes hroom hx), decode_padItem_marker h hm]
  exact execPadMarker_of hc howes hroom (by rw [markerItem_ticksOf hm, hx])

/-- The turn of a PAD that owes nothing, has room and reads a data item copies it. -/
theorem padTurn_data {s : State} {h : Nat} {p : Pad} {c : PadCall} {x : Item} (hc : padInCall s h p c)
    (howes : p.pendingPadding.toInt ≤ 0) (hroom : c.o < c.out.cap) (hx : c.inp.items[c.i]? = some x)
    (hm : isMarker x = false) :
    padTurn h s = .next (s.setPad h { p.count with call := some (c.copy x) }) := by
  rw [padTurn_op hc (padSelect_item howes hroom hx), decode_padItem_data h (Bool.eq_false_iff.1 hm)]
  exact execPadData_of hc howes hroom hx hm

/-- A call without room, or with nothing owed and its input consumed, is at its end (R159). -/
theorem padSelect_stop {h : Nat} {p : Pad} {c : PadCall}
    (hstop : c.out.cap ≤ c.o ∨ p.pendingPadding.toInt ≤ 0 ∧ c.inp.items.length ≤ c.i) :
    padSelect h p c = .finish := by
  obtain ⟨howes, hroom, _⟩ | ⟨_, hroom, x, hx, _⟩ | ⟨hs, _⟩ := padSelect_cases h p c
  · omega
  · have hi := (List.getElem?_eq_some_iff.1 hx).1
    omega
  · exact hs

/-- Anywhere else the turn runs one operation, and the call goes on with a cursor moved and both in range (R168). -/
theorem padTurn_goes_on {s : State} {h : Nat} {p : Pad} {c : PadCall} (hc : padInCall s h p c)
    (hi : c.i ≤ c.inp.items.length)
    (hgo : ¬ (c.out.cap ≤ c.o ∨ p.pendingPadding.toInt ≤ 0 ∧ c.inp.items.length ≤ c.i)) :
    ∃ (p' : Pad) (c' : PadCall), padTurn h s = .next (s.setPad h { p' with call := some c' }) ∧ p'.refused = none ∧
      c.i + c.o < c'.i + c'.o ∧ c'.i ≤ c'.inp.items.length ∧ c'.o ≤ c'.out.cap := by
  have hr := hc.2.2
  obtain ⟨howes, hroom, _⟩ | ⟨howes, hroom, x, hx, _⟩ | ⟨_, hstop⟩ := padSelect_cases h p c
  · exact ⟨_, _, padTurn_drain hc howes hroom, hr, Nat.lt_succ_self _, hi, hroom⟩
  · have hi' : c.i + 1 ≤ c.inp.items.length := (List.getElem?_eq_some_iff.1 hx).1
    cases hm : isMarker x with
    | true =>
      exact ⟨_, _, padTurn_marker hc howes hroom hx hm, hr, Nat.add_lt_add_right (Nat.lt_succ_self _) _, hi',
        hroom.le⟩
    | false =>
      exact ⟨_, _, padTurn_data hc howes hroom hx hm, hr, Nat.add_lt_add (Nat.lt_succ_self _) (Nat.lt_succ_self _),
        hi', hroom⟩
  · exact absurd hstop hgo

/-- Settles O21: with the cursors in range, S1 and S2 are where `padSelect` ends the call. -/
theorem padCallReturnsExactlyAtTheStops : Obligations.PadCallReturnsExactlyAtTheStops := by
  intro s h p c rest hc hs hi ho
  have hc' : padInCall { s with schedule := rest } h p c := hc
  have hstep : step s = padTurn h { s with schedule := rest } := step_scheduled hs
  rw [hstep]
  constructor
  · intro hstop
    exact padTurn_finish hc' (padSelect_stop (by omega))
  · intro hgo
    obtain ⟨p', c', hturn, hr, hprogress, hi', ho'⟩ := padTurn_goes_on hc' hi (by omega)
    exact ⟨_, _, c', hturn, padInCall_setPad hc'.1 hr, hprogress, hi', ho', rfl⟩

end Sys2Proof.Machine
end

section
/-! Whole PAD calls (42_padding.md R151, R152, R161, R162, R164, R167, R168): a call turn by turn as a relation on the
registers, the items left and the room left; the machine runs it, and the stream function computes it. -/

namespace Sys2Proof.Machine

/-! ## A call turn by turn -/

/-- The outcome with one more item written in front. -/
def PadOutcome.emit (r : PadOutcome) (x : Item) : PadOutcome := { r with outs := x :: r.outs }

/-- The outcome with one more item consumed. -/
def PadOutcome.consume (r : PadOutcome) : PadOutcome := { r with consumed := r.consumed + 1 }

/-- The outcome of a call and of what follows it. -/
def PadOutcome.append (r r' : PadOutcome) : PadOutcome :=
  { pad := r'.pad, consumed := r.consumed + r'.consumed, outs := r.outs ++ r'.outs }

/-- A call over the items `xs` with this much room can give the outcome: one constructor for the end of a call and one
for each operation. -/
inductive PadRun : Pad → List Item → Nat → PadOutcome → Prop where
  | stop {p : Pad} {xs : List Item} {room : Nat} (hstop : room = 0 ∨ p.pendingPadding.toInt ≤ 0 ∧ xs = []) :
      PadRun p xs room { pad := p, consumed := 0, outs := [] }
  | drain {p : Pad} {xs : List Item} {room : Nat} {r : PadOutcome} (howes : 0 < p.pendingPadding.toInt)
      (hr : PadRun (p.pay 1) xs room r) : PadRun p xs (room + 1) (r.emit filler)
  | marker {p : Pad} {x : Item} {xs : List Item} {room : Nat} {r : PadOutcome} (howes : p.pendingPadding.toInt ≤ 0)
      (hroom : 0 < room) (hm : isMarker x = true) (hr : PadRun (p.absorb (ticksOf x)) xs room r) :
      PadRun p (x :: xs) room r.consume
  | data {p : Pad} {x : Item} {xs : List Item} {room : Nat} {r : PadOutcome} (howes : p.pendingPadding.toInt ≤ 0)
      (hm : isMarker x = false) (hr : PadRun p.count xs room r) : PadRun p (x :: xs) (room + 1) (r.consume.emit x)

namespace PadRun

variable {p : Pad} {xs : List Item} {room : Nat} {r : PadOutcome}

/-- A call consumes no more than there is and writes no more than there is room for. -/
theorem bounds (hrun : PadRun p xs room r) : r.consumed ≤ xs.length ∧ r.outs.length ≤ room := by
  induction hrun with
  | stop => exact ⟨Nat.zero_le _, Nat.zero_le _⟩
  | drain _ _ ih => exact ⟨ih.1, Nat.succ_le_succ ih.2⟩
  | marker _ _ _ _ ih => exact ⟨Nat.succ_le_succ ih.1, ih.2⟩
  | data _ _ _ ih => exact ⟨Nat.succ_le_succ ih.1, Nat.succ_le_succ ih.2⟩

/-- The registers a call leaves say of the call in progress and of a refusal what those before it said. -/
theorem keeps (hrun : PadRun p xs room r) : r.pad.call = p.call ∧ r.pad.refused = p.refused := by
  induction hrun with
  | stop => exact ⟨rfl, rfl⟩
  | drain _ _ ih | marker _ _ _ _ ih | data _ _ _ ih => exact ih

/-- A call ends for want of room, or with nothing owed and everything consumed (R159). -/
theorem ended (hrun : PadRun p xs room r) :
    r.outs.length = room ∨ r.pad.pendingPadding.toInt ≤ 0 ∧ xs.drop r.consumed = [] := by
  induction hrun with
  | stop hstop => exact hstop.imp_left Eq.symm
  | drain _ _ ih | data _ _ _ ih => exact ih.imp_left (congrArg (· + 1))
  | marker _ _ _ _ ih => exact ih

/-- A call, and a call over what it left and what came after, in the room it left and some more, are one call. -/
theorem append {ys : List Item} {more : Nat} {r' : PadOutcome} (hrun : PadRun p xs room r)
    (hrest : PadRun r.pad (xs.drop r.consumed ++ ys) (room - r.outs.length + more) r') :
    PadRun p (xs ++ ys) (room + more) (r.append r') := by
  induction hrun with
  | stop hstop => simpa [PadOutcome.append] using hrest
  | drain howes _ ih =>
    have hr := ih (by simpa [PadOutcome.emit] using hrest)
    rw [Nat.add_right_comm]
    exact .drain howes hr
  | @marker p x xs room r howes hroom hm _ ih =>
    have hr := ih hrest
    have he : r.consume.append r' = (r.append r').consume := by
      simp [PadOutcome.append, PadOutcome.consume, Nat.add_right_comm]
    rw [he]
    exact .marker howes (Nat.add_pos_left hroom _) hm hr
  | @data p x xs room r howes hm _ ih =>
    have hr := ih (by simpa [PadOutcome.emit, PadOutcome.consume] using hrest)
    have he : (r.consume.emit x).append r' = ((r.append r').consume).emit x := by
      simp [PadOutcome.append, PadOutcome.consume, PadOutcome.emit, Nat.add_right_comm]
    rw [he, Nat.add_right_comm]
    exact .data howes hm hr

/-- The owed fillers, as many as fit, come before anything else (R152). -/
theorem drainAll {d : Nat} (hd : p.drained room = d) (hrun : PadRun (p.pay d) xs (room - d) r) :
    PadRun p xs room { r with outs := List.replicate d filler ++ r.outs } := by
  induction d generalizing p room with
  | zero => simpa using hrun
  | succ d ih =>
    have howed := mt Pad.drained_eq_zero_iff.2 (by omega : p.drained room ≠ 0)
    obtain ⟨room, rfl⟩ := Nat.exists_eq_succ_of_ne_zero (n := room) (by omega)
    have hr := ih (p := p.pay 1) (room := room) (Pad.drained_pay_one hd)
      (by rwa [Pad.pay_pay, Nat.add_comm 1, ← Nat.add_sub_add_right room 1 d])
    exact .drain (by omega) hr

end PadRun

/-- Where there is room for more than the fillers owed, none is owed after them. -/
theorem Pad.pay_drained_toInt {p : Pad} {room : Nat} (hd : p.pendingPadding.toInt ≤ room) :
    (p.pay (p.drained room)).pendingPadding.toInt ≤ 0 := by
  obtain hle | hpos := le_or_gt p.pendingPadding.toInt 0
  · rwa [Pad.drained_eq_zero_iff.2 (.inl hle), Pad.pay_zero]
  · have hdrained : (p.drained room : Int) = p.pendingPadding.toInt := by
      unfold Pad.drained
      omega
    rw [Pad.pay_toInt hdrained.le]
    omega

/-- With its input consumed a call writes the fillers owed, as many as fit. -/
theorem PadRun.nil (p : Pad) (room : Nat) :
    PadRun p [] room
      { pad := p.pay (p.drained room), consumed := 0, outs := List.replicate (p.drained room) filler } := by
  have hstop : room - p.drained room = 0 ∨
      (p.pay (p.drained room)).pendingPadding.toInt ≤ 0 ∧ ([] : List Item) = [] := by
    obtain hle | hlt := le_or_gt p.pendingPadding.toInt room
    · exact .inr ⟨Pad.pay_drained_toInt hle, rfl⟩
    · left
      unfold Pad.drained
      omega
  simpa using PadRun.drainAll rfl (.stop hstop)

/-- The stream function is a call turn by turn. -/
theorem padRun_padProcess (p : Pad) (xs : List Item) (room : Nat) : PadRun p xs room (padProcess p xs room) := by
  induction xs generalizing p room with
  | nil => exact .nil p room
  | cons x xs ih =>
    rw [padProcess]
    dsimp only
    split
    · rename_i hfull
      simpa using PadRun.drainAll rfl (.stop (.inl (Nat.sub_eq_zero_of_le hfull)))
    · rename_i hroom
      have howes : (p.pay (p.drained room)).pendingPadding.toInt ≤ 0 := by
        refine Pad.pay_drained_toInt ?_
        unfold Pad.drained at hroom
        omega
      split
      · rename_i hm
        exact PadRun.drainAll rfl (.marker howes (by omega) hm (ih _ _))
      · rename_i hm
        have hr := PadRun.data howes (Bool.eq_false_iff.2 hm) (ih _ (room - p.drained room - 1))
        rw [Nat.sub_add_cancel (by omega)] at hr
        exact PadRun.drainAll rfl hr

end Sys2Proof.Machine
end

section
/-! Whole PAD calls on the machine (42_padding.md R151, R161, R162, R164, R167, R168): every turn of a call is one
constructor of `PadRun`, so what a call returns is what `PadRun` gives. -/

namespace Sys2Proof.Machine

/-! ## The window of a call -/

/-- The slots after the items are written from slot `k` on. -/
def Memory.writeFrom (m : Memory) (k : Nat) : List Item → Memory
  | [] => m
  | x :: xs => Memory.writeFrom (Memory.write m k x) (k + 1) xs

theorem slotsOf_concat (ws : List Item) (x : Item) : slotsOf (ws ++ [x]) = slotsOf ws ++ [(ws.length, x)] := by
  simp [slotsOf, List.zipIdx_append]

theorem slotsOf_keys (ws : List Item) : (slotsOf ws).map Prod.fst = List.range ws.length := by
  rw [slotsOf, List.map_map, List.range_eq_range', ← List.zipIdx_map_snd 0 ws]
  rfl

/-- Items written from the first free slot on come after those written before. -/
theorem Memory.writeFrom_slotsOf (ws xs : List Item) :
    Memory.writeFrom (slotsOf ws) ws.length xs = slotsOf (ws ++ xs) := by
  induction xs generalizing ws with
  | nil => rw [Memory.writeFrom, List.append_nil]
  | cons x xs ih =>
    have hnext := ih (ws ++ [x])
    rw [List.length_append, slotsOf_concat, List.append_assoc] at hnext
    rw [Memory.writeFrom, Memory.write_next _ _ _ (slotsOf_keys ws)]
    exact hnext

/-- The call after the part of it that gives the outcome `r`. -/
def PadCall.after (c : PadCall) (r : PadOutcome) : PadCall :=
  { c with
    i := c.i + r.consumed
    o := c.o + r.outs.length
    out := { c.out with slots := Memory.writeFrom c.out.slots c.o r.outs } }

theorem PadCall.fill_after (c : PadCall) (r : PadOutcome) : c.fill.after r = c.after (r.emit filler) := by
  simp [PadCall.after, PadCall.fill, PadOutcome.emit, Memory.writeFrom, Nat.add_assoc, Nat.add_comm 1]

theorem PadCall.skip_after (c : PadCall) (r : PadOutcome) : c.skip.after r = c.after r.consume := by
  simp [PadCall.after, PadCall.skip, PadOutcome.consume, Nat.add_assoc, Nat.add_comm 1]

theorem PadCall.copy_after (c : PadCall) (x : Item) (r : PadOutcome) :
    (c.copy x).after r = c.after (r.consume.emit x) := by
  simp [PadCall.after, PadCall.copy, PadOutcome.consume, PadOutcome.emit, Memory.writeFrom, Nat.add_assoc,
    Nat.add_comm 1]

/-! ## The turns of a call -/

/-- The call `c` of PAD `h` has ended, and no turn is left. -/
def State.padEnd (s : State) (h : Nat) (p : Pad) (c : PadCall) : State := { s.finishPad h p c with schedule := [] }

/-- The end of a call leaves nothing of what the PAD was before, nor of the turns there were. -/
theorem State.padEnd_setPad (s : State) (ts : List Turn) (h : Nat) (p q : Pad) (c : PadCall) :
    ({ s with schedule := ts }.setPad h q).padEnd h p c = s.padEnd h p c := by
  simp [State.padEnd, State.finishPad, State.setPad, State.reply]

/-- A PAD is itself with its own call, or none, put in place. -/
theorem Pad.setCall_self {p : Pad} {call : Option PadCall} (hcall : p.call = call) : { p with call := call } = p := by
  subst hcall
  rfl

/-- The end of a call that began with an empty window is the return of a whole call. -/
theorem State.padEnd_start (s : State) (h : Nat) (inp : InWindow) (out : OutSpec) {r : PadOutcome}
    (hcall : r.pad.call = none) : s.padEnd h r.pad ((PadCall.start inp out).after r) = s.padReturn h out r := by
  have hslots : Memory.writeFrom [] 0 r.outs = slotsOf r.outs := Memory.writeFrom_slotsOf [] r.outs
  simp [State.padEnd, State.finishPad, State.setPad, State.reply, State.padReturn, PadCall.after, openWindow,
    Pad.setCall_self hcall, hslots]

/-- The item a call reads next is the first of those left. -/
theorem getElem?_and_drop_of_cons {α : Type} {l : List α} {i : Nat} {x : α} {xs : List α} (h : l.drop i = x :: xs) :
    l[i]? = some x ∧ l.drop (i + 1) = xs := by
  constructor
  · rw [← List.head?_drop, h, List.head?_cons]
  · rw [← List.tail_drop, h, List.tail_cons]

section
variable {s : State} {h k : Nat} {p : Pad} {c : PadCall} (hc : padInCall s h p c)
include hc

/-- The turn of a PAD at the end of its call returns, and the turns left after it change nothing. -/
theorem runTurns_return (hstop : c.out.cap ≤ c.o ∨ p.pendingPadding.toInt ≤ 0 ∧ c.inp.items.length ≤ c.i) :
    runTurns (List.replicate (k + 1) (.agent (.pad h))) s = .next (s.padEnd h p c) := by
  have hlast := padTurn_finish (s := { s with schedule := List.replicate k (.agent (.pad h)) }) hc
    (padSelect_stop hstop)
  have hidle : idlePad (s.finishPad h p c) h { p with call := none } := ⟨State.setPad_self hc.1, rfl, hc.2.2⟩
  exact (runTurns_pad_of hlast).trans (runTurns_idle hidle k)

/-- A call that goes on to the registers `q` and the call `c'` ends as it does from there. -/
theorem runTurns_goes_on {p' q : Pad} {c' c'' : PadCall} (hr : q.refused = none)
    (hturn : ∀ {m : State}, padInCall m h p c → padTurn h m = .next (m.setPad h { q with call := some c' }))
    (hrest : ∀ {m : State}, padInCall m h { q with call := some c' } c' →
      runTurns (List.replicate k (.agent (.pad h))) m = .next (m.padEnd h p' c'')) :
    runTurns (List.replicate (k + 1) (.agent (.pad h))) s = .next (s.padEnd h p' c'') := by
  have hc' : padInCall { s with schedule := List.replicate k (.agent (.pad h)) } h p c := hc
  have hm := hrest (padInCall_setPad hc'.1 hr)
  rw [State.padEnd_setPad] at hm
  exact (runTurns_pad_of (hturn hc')).trans hm

end

/-- Each turn of a PAD in a call is one constructor of `PadRun`. -/
theorem runTurns_padRun {p : Pad} {xs : List Item} {room : Nat} {r : PadOutcome} (hrun : PadRun p xs room r)
    {s : State} {h k : Nat} {c : PadCall} (hc : padInCall s h { p with call := some c } c)
    (hxs : c.inp.items.drop c.i = xs) (hroom : c.out.cap - c.o = room) (hk : xs.length + room ≤ k) :
    runTurns (List.replicate (k + 1) (.agent (.pad h))) s = .next (s.padEnd h r.pad (c.after r)) := by
  induction hrun generalizing s k c with
  | @stop p xs room hstop =>
    have hend : c.out.cap ≤ c.o ∨ p.pendingPadding.toInt ≤ 0 ∧ c.inp.items.length ≤ c.i :=
      hstop.imp (fun h0 => Nat.sub_eq_zero_iff_le.1 (hroom.trans h0))
        (And.imp_right fun hnil => List.drop_eq_nil_iff.1 (hxs.trans hnil))
    exact runTurns_return (p := { p with call := some c }) (c := c) hc hend
  | @drain p xs room r howes _ ih =>
    obtain ⟨k, rfl⟩ := Nat.exists_eq_add_one.2 (by omega : 0 < k)
    have hroom' : c.fill.out.cap - c.fill.o = room := by
      simp only [PadCall.fill]
      omega
    rw [← PadCall.fill_after]
    exact runTurns_goes_on (q := p.pay 1) (c' := c.fill) hc hc.2.2
      (fun hm => (padTurn_drain hm howes (by omega) :)) fun hm => ih hm hxs hroom' (by omega)
  | @marker p x xs room r howes hpos hmark _ ih =>
    rw [List.length_cons] at hk
    obtain ⟨k, rfl⟩ := Nat.exists_eq_add_one.2 (by omega : 0 < k)
    obtain ⟨hx, hdrop⟩ := getElem?_and_drop_of_cons hxs
    rw [← PadCall.skip_after]
    exact runTurns_goes_on (q := p.absorb (ticksOf x)) (c' := c.skip) hc hc.2.2
      (fun hm => (padTurn_marker hm howes (by omega) hx hmark :)) fun hm => ih hm hdrop hroom (by omega)
  | @data p x xs room r howes hmark _ ih =>
    rw [List.length_cons] at hk
    obtain ⟨k, rfl⟩ := Nat.exists_eq_add_one.2 (by omega : 0 < k)
    obtain ⟨hx, hdrop⟩ := getElem?_and_drop_of_cons hxs
    have hroom' : (c.copy x).out.cap - (c.copy x).o = room := by
      simp only [PadCall.copy]
      omega
    rw [← PadCall.copy_after]
    exact runTurns_goes_on (q := p.count) (c' := c.copy x) hc hc.2.2
      (fun hm => (padTurn_data hm howes (by omega) hx hmark :)) fun hm => ih hm hdrop hroom' (by omega)

/-- A whole call on an idle PAD returns what `PadRun` gives, and changes nothing else. -/
theorem padCallRun_of_padRun {s : State} {h : Nat} {p : Pad} {inp : InWindow} {out : OutSpec} {r : PadOutcome}
    (hi : idlePad s h p) (hf : fits s inp out = true) (hrun : PadRun p inp.items out.cap r) :
    padCallRun s h inp out = .next (s.padReturn h out r) := by
  have hi' : idlePad { s with schedule := List.replicate (inp.items.length + out.cap + 1) (.agent (.pad h)) } h p := hi
  have hstart : takeTurn (.host (.padCall h inp out)) _ = .next _ := execPadCall_of hi' hf
  rw [padCallRun, runTurns_cons_of hstart, ← State.padEnd_start s h inp out (hrun.keeps.1.trans hi.2.1),
    ← State.padEnd_setPad]
  exact runTurns_padRun hrun (padInCall_setPad hi'.1 hi.2.2) rfl rfl le_rfl

/-- Settles O26: the stream function is a call turn by turn, and the machine runs every such call. -/
theorem padCallIsTheStreamFunction : Obligations.PadCallIsTheStreamFunction :=
  fun _ _ p inp out hi hf => padCallRun_of_padRun hi hf (padRun_padProcess p inp.items out.cap)

/-- Settles O27: the run that the stream function computes from the items and the room left has one turn at most for
each, and one to return. -/
theorem padCallReturnsWithinTheBound : Obligations.PadCallReturnsWithinTheBound := by
  intro s h p c hc hi ho
  have hrun := padRun_padProcess p (c.inp.items.drop c.i) (c.out.cap - c.o)
  have hc' : padInCall s h { p with call := some c } c := by rwa [Pad.setCall_self hc.2.1]
  have hend := runTurns_padRun hrun hc' rfl rfl le_rfl
  obtain ⟨hconsumed, hproduced⟩ := hrun.bounds
  rw [List.length_drop] at hend hconsumed
  exact ⟨_, _, _, _, _, _, le_rfl, hend, State.setPad_self hc.1, rfl, rfl, Nat.le_add_right _ _,
    Nat.add_le_of_le_sub' hi hconsumed, Nat.le_add_right _ _, Nat.add_le_of_le_sub' ho hproduced⟩

/-! ## Streams of data items -/

/-- The registers after `n` data items. -/
def Pad.countMany (p : Pad) (n : Nat) : Pad := { p with itemsSinceTag := p.itemsSinceTag + BitVec.ofNat 32 n }

@[simp] theorem Pad.countMany_zero (p : Pad) : p.countMany 0 = p := by
  simp [Pad.countMany]

theorem Pad.count_countMany (p : Pad) (n : Nat) : p.count.countMany n = p.countMany (n + 1) := by
  simp [Pad.countMany, Pad.count, BitVec.ofNat_add, BitVec.add_assoc, BitVec.add_comm 1#32]

/-- With nothing owed, data items are copied and counted one by one (R155). -/
theorem PadRun.dataItems {p : Pad} {xs rest : List Item} {room : Nat} {r : PadOutcome}
    (howes : p.pendingPadding.toInt ≤ 0) (hdata : ∀ x ∈ xs, isMarker x = false)
    (hrun : PadRun (p.countMany xs.length) rest room r) :
    PadRun p (xs ++ rest) (room + xs.length)
      (PadOutcome.append { pad := p, consumed := xs.length, outs := xs } r) := by
  induction xs generalizing p with
  | nil => simpa [PadOutcome.append] using hrun
  | cons x xs ih =>
    obtain ⟨hx, hxs⟩ := List.forall_mem_cons.1 hdata
    have hr := ih (p := p.count) howes hxs (by rwa [Pad.count_countMany])
    have hstep := PadRun.data howes hx hr
    rw [List.length_cons, ← Nat.add_assoc]
    simpa [PadOutcome.append, PadOutcome.consume, PadOutcome.emit, Nat.add_right_comm] using hstep

/-- Settles O28: with nothing owed before or after them, the items are the whole of the call. -/
theorem dataOnlyStreamIsCopied : Obligations.DataOnlyStreamIsCopied := by
  intro s h p xs inBase out hi hf howes hdata hcap
  have hlast : PadRun (p.countMany xs.length) [] (out.cap - xs.length) _ := .stop (.inr ⟨howes, rfl⟩)
  have hrun := PadRun.dataItems howes hdata hlast
  rw [Nat.sub_add_cancel hcap, List.append_nil] at hrun
  rw [padCallRun_of_padRun hi hf hrun]
  simp [State.padReturn, PadOutcome.append, Pad.countMany]

/-! ## No room -/

/-- Settles O32: without room the call is at its end at once. -/
theorem zeroCapacityCallDoesNothing : Obligations.ZeroCapacityCallDoesNothing := by
  intro s h p inp base hi hf
  have hset : s.pads.set h p = s.pads := by
    obtain ⟨hlt, rfl⟩ := List.getElem?_eq_some_iff.1 hi.1
    exact List.set_getElem_self hlt
  rw [padCallRun_of_padRun hi hf (.stop (.inl rfl))]
  simp [State.padReturn, hset, slotsOf]

/-! ## One stream in two calls -/

/-- Windows that map no bytes and are no larger than some that fit, fit. -/
theorem fits_of_le {s s' : State} {xs xs' : List Item} {cap cap' : Nat}
    (hf : fits s { items := xs, base := none } { cap := cap, base := none } = true) (hmax : s'.maxCall = s.maxCall)
    (hlen : xs'.length ≤ xs.length) (hcap : cap' ≤ cap) :
    fits s' { items := xs', base := none } { cap := cap', base := none } = true := by
  obtain ⟨hsize, _, _⟩ := fits_iff.1 hf
  refine fits_iff.2 ⟨fun m hm => ?_, nofun, nofun⟩
  obtain ⟨hxs, hc⟩ := hsize m (hmax ▸ hm)
  exact ⟨hlen.trans hxs, hcap.trans hc⟩

/-- A PAD is idle again after a whole call. -/
theorem idlePad_padReturn {s : State} {h : Nat} {p : Pad} {xs : List Item} {room : Nat} {r : PadOutcome}
    (hi : idlePad s h p) (hrun : PadRun p xs room r) (out : OutSpec) : idlePad (s.padReturn h out r) h r.pad := by
  obtain ⟨hcall, hrefused⟩ := hrun.keeps
  exact ⟨State.setPad_self hi.1, hcall.trans hi.2.1, hrefused.trans hi.2.2⟩

/-- A second call, in its own room and in that and what the first one left, gives the same: a call leaves room only
where it found nothing more to do. -/
theorem PadRun.exists_next {p : Pad} {xs : List Item} {b1 : Nat} {r1 : PadOutcome} (hrun : PadRun p xs b1 r1)
    (b2 : Nat) :
    ∃ r2, PadRun r1.pad (xs.drop r1.consumed) b2 r2 ∧
      PadRun r1.pad (xs.drop r1.consumed) (b1 - r1.outs.length + b2) r2 := by
  obtain hfull | hdone := hrun.ended
  · have hnext := padRun_padProcess r1.pad (xs.drop r1.consumed) b2
    exact ⟨_, hnext, by rwa [hfull, Nat.sub_self, Nat.zero_add]⟩
  · exact ⟨_, .stop (.inr hdone), .stop (.inr hdone)⟩

/-- Settles O29: the run of the two calls appended is a run in the room of both. -/
theorem splitCallsGiveTheSameStream : Obligations.SplitCallsGiveTheSameStream := by
  intro s h p xs b1 b2 hi hf
  have hrun1 := padRun_padProcess p xs b1
  generalize padProcess p xs b1 = r1 at hrun1
  obtain ⟨r2, hrun2, hrun2'⟩ := hrun1.exists_next b2
  have hrun : PadRun p xs (b1 + b2) (r1.append r2) := by
    simpa using hrun1.append (ys := []) (by simpa using hrun2')
  have hi1 := idlePad_padReturn hi hrun1 { cap := b1, base := none }
  have hi2 := idlePad_padReturn hi1 hrun2 { cap := b2, base := none }
  have hi' := idlePad_padReturn hi hrun { cap := b1 + b2, base := none }
  refine ⟨_, _, _, r2.pad, r1.consumed, r2.consumed, r1.outs.length, r2.outs.length, r1.outs, r2.outs,
    padCallRun_of_padRun hi (fits_of_le hf rfl le_rfl (Nat.le_add_right _ _)) hrun1, rfl,
    padCallRun_of_padRun hi1 (fits_of_le hf rfl (by simp) (Nat.le_add_left _ _)) hrun2, rfl,
    padCallRun_of_padRun hi hf hrun, ?_, hi2.1, hi'.1⟩
  simp [State.padReturn, PadOutcome.append]

/-- Settles O30: what the second call left of the stream goes on in the room that the first one left. -/
theorem callsWriteAPrefixOfOneStream : Obligations.CallsWriteAPrefixOfOneStream := by
  intro s h p xs ys b1 b2 hi hf
  have hrun1 := padRun_padProcess p xs b1
  generalize padProcess p xs b1 = r1 at hrun1
  have hrun2 := padRun_padProcess r1.pad (xs.drop r1.consumed ++ ys) b2
  generalize padProcess r1.pad (xs.drop r1.consumed ++ ys) b2 = r2 at hrun2
  have hrun3 := padRun_padProcess r2.pad ((xs.drop r1.consumed ++ ys).drop r2.consumed)
    (b2 - r2.outs.length + (b1 - r1.outs.length))
  generalize padProcess r2.pad _ _ = r3 at hrun3
  have hrun23 : PadRun r1.pad (xs.drop r1.consumed ++ ys) (b1 - r1.outs.length + b2) (r2.append r3) := by
    rw [Nat.add_comm]
    simpa using hrun2.append (ys := []) (by simpa using hrun3)
  have hrun := hrun1.append hrun23
  have hi1 := idlePad_padReturn hi hrun1 { cap := b1, base := none }
  refine ⟨_, _, _, r1.consumed, r2.consumed, r1.consumed + (r2.consumed + r3.consumed), r1.outs.length,
    r2.outs.length, r1.outs.length + (r2.outs.length + r3.outs.length), r1.outs, r2.outs, r3.outs,
    padCallRun_of_padRun hi (fits_of_le hf rfl (by simp) (Nat.le_add_right _ _)) hrun1, rfl,
    padCallRun_of_padRun hi1 (fits_of_le hf rfl (by simp) (Nat.le_add_left _ _)) hrun2, rfl,
    padCallRun_of_padRun hi hf hrun, ?_, by omega, by omega⟩
  simp [State.padReturn, PadOutcome.append]

/-! ## The gap law -/

/-- A marker after data items that owe nothing sets the gap of R164: the gap of the times less the items. -/
theorem Pad.gap_countMany_toInt {p : Pad} {n : Nat} (hlegal : legalRate p.sampleRate = true)
    (hlater : p.lastTimestamp ≠ 0#32) (hzero : p.itemsSinceTag = 0#32) (hn : n < 2 ^ 32) (ticks : BitVec 32) :
    ((p.countMany n).gap ticks).toInt = (gapItems (ticks - p.lastTimestamp) p.sampleRate).toInt - n := by
  have hitems : (p.countMany n).itemsSinceTag.toNat = n := by
    rw [Pad.countMany, hzero, BitVec.zero_add, BitVec.toNat_ofNat, Nat.mod_eq_of_lt hn]
  rw [Pad.gap_toInt (p := p.countMany n) hlegal, hitems, Pad.diff_of_later (p := p.countMany n) hlater]
  rfl

/-- Settles O31: the items are copied, the marker sets `pending_padding`, and all of it is drained. -/
theorem gapLawBetweenTwoMarkers : Obligations.GapLawBetweenTwoMarkers := by
  intro s h p xs t2 cap hi hlegal hlater hzero howes hdata hlen hlt hcap hf
  have hgap := Pad.gap_countMany_toInt hlegal hlater hzero hlen t2
  generalize (gapItems (t2 - p.lastTimestamp) p.sampleRate).toInt = gap at hcap hgap ⊢
  have hroom : 0 < cap - xs.length := Nat.sub_pos_of_lt hlt
  have hfit : ((p.countMany xs.length).absorb t2).pendingPadding.toInt ≤ (cap - xs.length : Nat) := by
    rw [Pad.absorb_pendingPadding, hgap]
    omega
  have hdrained : ((p.countMany xs.length).absorb t2).drained (cap - xs.length) = (gap - xs.length).toNat := by
    rw [Pad.drained, Pad.absorb_pendingPadding, hgap]
    omega
  have hdrain := PadRun.nil ((p.countMany xs.length).absorb t2) (cap - xs.length)
  have hpaid := Pad.pay_drained_toInt hfit
  rw [hdrained] at hdrain hpaid
  have hmarker : PadRun (p.countMany xs.length) [markerItem t2] (cap - xs.length) _ :=
    .marker howes hroom (isMarker_markerItem t2) (by rwa [ticksOf_markerItem])
  have hrun := PadRun.dataItems howes hdata hmarker
  rw [Nat.sub_add_cancel hlt.le] at hrun
  refine ⟨_, _, padCallRun_of_padRun hi hf hrun, ?_, (idlePad_padReturn hi hrun _).1, rfl, rfl, hpaid⟩
  simp [State.padReturn, PadOutcome.append, PadOutcome.consume, filler]

end Sys2Proof.Machine
end

section
/-! The time value of an annotation (43_tag.md R195): the bits of a finite value read back, and the one rounding of
`tag_time`. -/

namespace Sys2Proof.Machine

/-- A representable magnitude is a subnormal one, or a fraction below its leading bit at some exponent. -/
theorem representable_fields {n : Nat} (hn : representable n) :
    n < 2 ^ 52 ∨ ∃ f e, f < 2 ^ 52 ∧ n = (2 ^ 52 + f) * 2 ^ e := by
  obtain hsmall | hlarge := Nat.lt_or_ge n (2 ^ 53)
  · by_cases hsub : n < 2 ^ 52
    · exact .inl hsub
    · exact .inr ⟨n - 2 ^ 52, 0, by omega, by omega⟩
  · obtain ⟨hlow, hhigh⟩ := lostBits_bounds hlarge
    generalize lostBits n = e at hlow hhigh
    rw [Nat.pow_add] at hlow hhigh
    obtain ⟨m, rfl⟩ | ⟨_, hlt⟩ := representable_cases e hn
    · have hm := Nat.le_of_mul_le_mul_right hlow (Nat.two_pow_pos e)
      have hm' := Nat.lt_of_mul_lt_mul_right hhigh
      exact .inr ⟨m - 2 ^ 52, e, by omega, by rw [Nat.add_sub_cancel' hm]⟩
    · omega

/-- The bits of a finite value that is not negative stand for that value. -/
theorem f64OfBits_f64ToBits_fin {n : Nat} (hn : representable n) (hlt : n < overflowUnits) :
    f64OfBits (f64ToBits (.fin false n)) = .fin false n := by
  rw [f64ToBits, withSign, if_neg Bool.false_ne_true, Nat.zero_add]
  obtain hsub | ⟨f, e, hf, rfl⟩ := representable_fields hn
  · rw [packUnits_of_lt (by omega)]
    simpa using f64OfBits_fields 0 n (by decide) hsub
  · have hexp : 2 ^ (52 + e) < 2 ^ 2098 := by
      rw [Nat.pow_add]
      exact (Nat.mul_le_mul_right _ (Nat.le_add_right _ f)).trans_lt hlt
    have he := (Nat.pow_lt_pow_iff_right (by decide)).1 hexp
    rw [packUnits_normal f e hf, f64OfBits_fields (e + 1) f (by omega) hf, if_neg e.succ_ne_zero,
      Nat.add_sub_cancel]

/-- `to_f64(t) *f TICK_US` rounds once, and no timestamp overflows it. -/
theorem f64Mul_tick (ticks : BitVec 32) :
    f64Mul (f64OfNat ticks.toNat) (f64OfBits tickUsBits) = .fin false (gapMicros ticks.toNat) ∧
      gapMicros ticks.toNat < overflowUnits := by
  have hlt : gapMicros ticks.toNat < overflowUnits :=
    (gapMicros_mono (Nat.le_pred_of_lt ticks.isLt)).trans_lt gap_at_largest.1
  have hscale : roundUnits (ticks.toNat * unitsPerOne * tickUnits) unitsPerOne = gapMicros ticks.toNat := by
    rw [gapMicros, ← roundUnits_scale _ 1 unitsPerOne unitsPerOne_pos, Nat.one_mul, Nat.mul_right_comm]
  refine ⟨?_, hlt⟩
  rw [f64OfBits_tickUsBits, f64OfNat, f64Mul_fin, roundF64_of_lt (hscale ▸ hlt), hscale, bne_self_eq_false]

/-- The time value is the number of ticks times `TICK_US`, rounded once (R195). -/
theorem tagTime_nearestEven (ticks : BitVec 32) :
    NearestEven (ticks.toNat * tickUnits) 1 (gapMicros ticks.toNat) ∧
      f64OfBits (tagTime ticks) = .fin false (gapMicros ticks.toNat) := by
  obtain ⟨hmul, hlt⟩ := f64Mul_tick ticks
  have hnear : NearestEven (ticks.toNat * tickUnits) 1 (gapMicros ticks.toNat) :=
    roundUnits_nearestEven _ 1 Nat.one_pos
  exact ⟨hnear, by rw [tagTime, hmul, f64OfBits_f64ToBits_fin hnear.1 hlt]⟩

end Sys2Proof.Machine
end

section
/-! TAG, operation by operation (43_tag.md R190 to R192, R194, R197): what each does, and the return of a call. -/

namespace Sys2Proof.Machine

/-- A status read of a TAG in a call is refused (R197). -/
theorem execTagStatus_busy {s : State} {h : Nat} {t : Tag} {c : TagCall} (hc : tagInCall s h t c) :
    execTagStatus h s = .refused .concurrentCall := by
  obtain ⟨ht, hcall, hr⟩ := hc
  simp [execTagStatus, State.onTag_of ht hr, unlessBusy, Tag.busy, hcall]

/-- Settles O14: the two answers of `unlessBusy`. -/
theorem tagStatusReturnsTheRegister : Obligations.TagStatusReturnsTheRegister :=
  fun _ _ _ => ⟨execTagStatus_of, fun _ => execTagStatus_busy⟩

/-- Settles O34: windows within the bounds fit, and `TagCall.start` is the call that R190 writes out. -/
theorem tagCallStartsTheCall : Obligations.TagCallStartsTheCall :=
  fun _ _ _ _ _ hi hsize hin hout => execTagCall_of hi (fits_iff.2 ⟨hsize, hin, hout⟩)

/-- Settles O35: the one slot written is slot `i - r`. -/
theorem tagDataCopiesToTheCompactedSlot : Obligations.TagDataCopiesToTheCompactedSlot := by
  intro s h t c x hc hi hcap hx hmask
  have hm : isMarker x = false := Bool.eq_false_iff.2 (mt (isMarker_iff_mask x).1 hmask)
  exact ⟨Memory.write c.out.slots (c.i - c.r) x, execTagData_of hc hi hx hm (by omega), Memory.read_write_same _ _ _,
    fun k hk => Memory.read_write_other _ _ k _ hk⟩

/-- A register is raised by a number modulo `2^64` (D24). -/
theorem ofNat_toNat_add (b : BitVec 64) (n : Nat) : BitVec.ofNat 64 (b.toNat + n) = b + BitVec.ofNat 64 n := by
  rw [BitVec.ofNat_add, BitVec.ofNat_toNat, BitVec.setWidth_eq]

/-- Where no more items were removed than read, the offset is the total and the number of items written. -/
theorem Tag.offset_eq_add (t : Tag) {c : TagCall} (hr : c.r ≤ c.i) :
    t.offset c = t.itemsWrittenTotal + BitVec.ofNat 64 (c.i - c.r) := by
  obtain ⟨k, hk⟩ := Nat.exists_eq_add_of_le' hr
  rw [Tag.offset, hk, Nat.add_sub_cancel, BitVec.ofNat_add, ← BitVec.add_assoc, BitVec.add_sub_cancel]

/-- Settles O36: `Tag.offset` is the offset that R192 writes out, and `tag_time` rounds once. -/
theorem tagMarkerEmitsTheAnnotation : Obligations.TagMarkerEmitsTheAnnotation := by
  intro s h t c ticks hc hi hr hx
  rw [Nat.add_sub_assoc hr, ofNat_toNat_add, ← t.offset_eq_add hr]
  exact ⟨execTagMarker_of hc hi hx, tickUnits, gapMicros ticks.toNat, tickUnits_nearestEven,
    tagTime_nearestEven ticks⟩

/-- The end of a TAG call is selected at `i = N` (R193). -/
theorem tagSelect_end (h : Nat) {c : TagCall} (hend : c.n ≤ c.i) : tagSelect h c = .finish := if_neg hend.not_gt

/-- Settles O37: at `i = N` the turn is the end of the call. -/
theorem tagCallReturnsAtTheEnd : Obligations.TagCallReturnsAtTheEnd := by
  intro s h t c rest hc hs hend
  have hc' : tagInCall { s with schedule := rest } h t c := hc
  rw [step_scheduled hs, ofNat_toNat_add]
  exact tagTurn_finish hc' (tagSelect_end h hend.ge)

end Sys2Proof.Machine
end

section
/-! Whole TAG calls (43_tag.md R190, R193, R196, R198 to R201): what a call has made of the items it has read, turn by
turn, and the stream function in the terms of its parts. -/

namespace Sys2Proof.Machine

/-! ## The stream function on the parts of a stream -/

@[simp] theorem dataItems_nil : dataItems [] = [] := rfl

@[simp] theorem tagAnns_nil (total : BitVec 64) : tagAnns total [] = [] := rfl

@[simp] theorem dataItems_append (xs ys : List Item) : dataItems (xs ++ ys) = dataItems xs ++ dataItems ys :=
  List.filter_append ..

/-- A marker is no data item. -/
theorem dataItems_marker {x : Item} (hm : isMarker x = true) (xs : List Item) : dataItems (x :: xs) = dataItems xs :=
  List.filter_cons_of_neg (by simp [hm])

theorem dataItems_data {x : Item} (hm : isMarker x = false) (xs : List Item) :
    dataItems (x :: xs) = x :: dataItems xs :=
  List.filter_cons_of_pos (by simp [hm])

/-- A marker is annotated with the offset of the next data item (R196). -/
theorem tagAnns_marker {x : Item} (hm : isMarker x = true) (total : BitVec 64) (xs : List Item) :
    tagAnns total (x :: xs) = { offset := total, timeValue := tagTime (ticksOf x) } :: tagAnns total xs := if_pos hm

/-- A data item takes one offset. -/
theorem tagAnns_data {x : Item} (hm : isMarker x = false) (total : BitVec 64) (xs : List Item) :
    tagAnns total (x :: xs) = tagAnns (total + 1#64) xs := if_neg (Bool.eq_false_iff.1 hm)

/-- The offsets of what follows go on where the data items before it end. -/
theorem tagAnns_append (total : BitVec 64) (xs ys : List Item) :
    tagAnns total (xs ++ ys) = tagAnns total xs ++ tagAnns (total + BitVec.ofNat 64 (dataItems xs).length) ys := by
  induction xs generalizing total with
  | nil => simp
  | cons x xs ih =>
    rw [List.cons_append]
    cases hm : isMarker x with
    | true => rw [tagAnns_marker hm, tagAnns_marker hm, dataItems_marker hm, ih, List.cons_append]
    | false =>
      rw [tagAnns_data hm, tagAnns_data hm, dataItems_data hm, ih, List.length_cons, Nat.add_comm _ 1,
        BitVec.ofNat_add, BitVec.add_assoc]

/-- A marker's annotation comes after those of the markers before it, and its offset counts the data items before it. -/
theorem tagAnns_getElem?_marker {x : Item} (hm : isMarker x = true) (total : BitVec 64) (xs ys : List Item) :
    (tagAnns total (xs ++ x :: ys))[(tagAnns total xs).length]? =
      some { offset := total + BitVec.ofNat 64 (dataItems xs).length, timeValue := tagTime (ticksOf x) } := by
  rw [tagAnns_append, tagAnns_marker hm]
  simp

/-- Every item is written or annotated (R198). -/
theorem length_dataItems_add_tagAnns (total : BitVec 64) (xs : List Item) :
    (dataItems xs).length + (tagAnns total xs).length = xs.length := by
  induction xs generalizing total with
  | nil => rfl
  | cons x xs ih =>
    cases hm : isMarker x with
    | true =>
      rw [tagAnns_marker hm, dataItems_marker hm, List.length_cons, ← Nat.add_assoc, ih, List.length_cons]
    | false =>
      rw [tagAnns_data hm, dataItems_data hm, List.length_cons, Nat.add_right_comm, ih, List.length_cons]

theorem slotsOf_length (ws : List Item) : (slotsOf ws).length = ws.length := by
  rw [slotsOf, List.length_map, List.length_zipIdx]

/-! ## A call turn by turn -/

/-- The call of TAG `t` once it has read the items `ys`: what the stream function makes of them (R193). -/
def Tag.callAfter (t : Tag) (inp : InWindow) (out : OutSpec) (ys : List Item) : TagCall :=
  { i := ys.length
    r := (tagAnns t.itemsWrittenTotal ys).length
    n := min inp.items.length out.cap
    inp := inp
    out := { cap := out.cap, base := out.base, slots := slotsOf (dataItems ys) }
    anns := tagAnns t.itemsWrittenTotal ys }

theorem Tag.callAfter_nil (t : Tag) (inp : InWindow) (out : OutSpec) :
    t.callAfter inp out [] = TagCall.start inp out := rfl

section
variable (t : Tag) (inp : InWindow) (out : OutSpec) (ys : List Item)

/-- The next slot comes after the data items written. -/
theorem Tag.callAfter_slot :
    (t.callAfter inp out ys).i - (t.callAfter inp out ys).r = (dataItems ys).length :=
  Nat.sub_eq_of_eq_add (length_dataItems_add_tagAnns _ ys).symm

/-- The offset of the next annotation counts the data items before it (R196). -/
theorem Tag.offset_callAfter :
    t.offset (t.callAfter inp out ys) = t.itemsWrittenTotal + BitVec.ofNat 64 (dataItems ys).length := by
  have hr : (tagAnns t.itemsWrittenTotal ys).length ≤ ys.length :=
    length_dataItems_add_tagAnns t.itemsWrittenTotal ys ▸ Nat.le_add_left ..
  rw [t.offset_eq_add (c := t.callAfter inp out ys) hr, Tag.callAfter_slot]

variable {x : Item}

/-- After one more marker: one annotation more, and no slot written. -/
theorem Tag.callAfter_marker (hm : isMarker x = true) :
    t.callAfter inp out (ys ++ [x]) =
      { t.callAfter inp out ys with
        anns := (t.callAfter inp out ys).anns ++
          [{ offset := t.offset (t.callAfter inp out ys), timeValue := tagTime (ticksOf x) }]
        r := (t.callAfter inp out ys).r + 1
        i := (t.callAfter inp out ys).i + 1 } := by
  rw [Tag.offset_callAfter]
  simp [Tag.callAfter, tagAnns_append, tagAnns_marker hm, dataItems_marker hm]

/-- After one more data item: one slot more, and no annotation. -/
theorem Tag.callAfter_data (hm : isMarker x = false) :
    t.callAfter inp out (ys ++ [x]) =
      { t.callAfter inp out ys with
        i := (t.callAfter inp out ys).i + 1
        out := { (t.callAfter inp out ys).out with
          slots := Memory.write (t.callAfter inp out ys).out.slots
            ((t.callAfter inp out ys).i - (t.callAfter inp out ys).r) x } } := by
  rw [Tag.callAfter_slot]
  simp [Tag.callAfter, tagAnns_append, tagAnns_data hm, dataItems_data hm, slotsOf_concat,
    Memory.write_next _ _ _ (slotsOf_keys _)]

end

/-- While the batch has an item left, the turn of a TAG in its call reads it. -/
theorem tagTurn_callAfter {s : State} {h : Nat} {t : Tag} {inp : InWindow} {out : OutSpec} {ys zs : List Item}
    {x : Item} (hc : tagInCall s h t (t.callAfter inp out ys)) (hbatch : inp.items.take out.cap = ys ++ x :: zs) :
    tagTurn h s = .next (s.setTag h { t with call := some (t.callAfter inp out (ys ++ [x])) }) := by
  have hlen := congrArg List.length hbatch
  rw [List.length_take, List.length_append, List.length_cons] at hlen
  have hi : (t.callAfter inp out ys).i < (t.callAfter inp out ys).n := by
    simp only [Tag.callAfter]
    omega
  have hx : inp.items[ys.length]? = some x := by
    rw [← List.getElem?_take_of_lt (j := out.cap) (by omega), hbatch]
    simp
  rw [tagTurn_op hc (tagSelect_item hi hx)]
  cases hm : isMarker x with
  | true =>
    rw [decode_tagItem_marker h hm, t.callAfter_marker inp out ys hm]
    exact execTagMarker_of hc hi (by rw [markerItem_ticksOf hm]; exact hx)
  | false =>
    rw [decode_tagItem_data h (Bool.eq_false_iff.1 hm), t.callAfter_data inp out ys hm]
    refine execTagData_of hc hi hx hm ?_
    simp only [Tag.callAfter]
    omega

/-- A TAG is itself with its own call, or none, put in place. -/
theorem Tag.setCall_self {t : Tag} {call : Option TagCall} (hcall : t.call = call) : { t with call := call } = t := by
  subst hcall
  rfl

/-- The return of a call leaves nothing of what the TAG was before, nor of the turns there were. -/
theorem State.tagReturn_setTag (s : State) (ts : List Turn) (h : Nat) (t u : Tag) (out : OutSpec) (xs : List Item) :
    ({ s with schedule := ts }.setTag h u).tagReturn h t out xs = s.tagReturn h t out xs := by
  simp [State.tagReturn, State.setTag]

/-- With the whole batch read, the end of the call is what R194 returns of it. -/
theorem State.finishTag_callAfter (s : State) (h : Nat) (t : Tag) {inp : InWindow} {out : OutSpec} {ys : List Item}
    (hn : (t.callAfter inp out ys).n = (t.callAfter inp out ys).i) :
    { s.finishTag h t (t.callAfter inp out ys) with schedule := [] } =
      s.tagReturn h { t with call := none } out ys := by
  rw [State.finishTag, hn, Tag.callAfter_slot]
  rfl

/-- From the items `ys` read, a turn for each item left in the batch and one more end the call (R193, R201). -/
theorem runTurns_callAfter {s : State} {h : Nat} {t : Tag} {inp : InWindow} {out : OutSpec} {ys zs : List Item}
    (hc : tagInCall s h t (t.callAfter inp out ys)) (hbatch : inp.items.take out.cap = ys ++ zs) :
    runTurns (List.replicate (zs.length + 1) (.agent (.tag h))) s =
      .next (s.tagReturn h { t with call := none } out (inp.items.take out.cap)) := by
  induction zs generalizing s t ys with
  | nil =>
    rw [List.append_nil] at hbatch
    have hn : (t.callAfter inp out ys).n = (t.callAfter inp out ys).i := by
      rw [Tag.callAfter, ← hbatch, List.length_take, Nat.min_comm]
    have hlast : takeTurn (.agent (.tag h)) { s with schedule := [] } = _ := tagTurn_finish hc (tagSelect_end h hn.le)
    have hrun := runTurns_cons_of hlast
    rw [hbatch, ← State.finishTag_callAfter s h t hn]
    exact hrun
  | cons x zs ih =>
    have hc' : tagInCall { s with schedule := List.replicate (zs.length + 1) (.agent (.tag h)) } h t
      (t.callAfter inp out ys) := hc
    have hread : takeTurn (.agent (.tag h)) _ = _ := tagTurn_callAfter hc' hbatch
    have hbatch' : inp.items.take out.cap = ys ++ [x] ++ zs := by rw [hbatch, List.append_assoc, List.singleton_append]
    have hrest := ih (t := { t with call := some (t.callAfter inp out (ys ++ [x])) })
      ⟨State.setTag_self hc'.1, rfl, hc.2.2⟩ hbatch'
    rw [State.tagReturn_setTag] at hrest
    exact (runTurns_cons_of hread).trans hrest

/-- Settles O38: the call starts with nothing read, and each turn reads one item of the batch. -/
theorem tagCallIsTheStreamFunction : Obligations.TagCallIsTheStreamFunction := by
  intro s h t inp out hi hf
  have hi' : idleTag { s with schedule := List.replicate (min inp.items.length out.cap + 1) (.agent (.tag h)) } h t :=
    hi
  have hstart : takeTurn (.host (.tagCall h inp out)) _ = .next _ := execTagCall_of hi' hf
  rw [← t.callAfter_nil] at hstart
  have hrun := runTurns_callAfter (t := { t with call := some (t.callAfter inp out []) })
    ⟨State.setTag_self hi'.1, rfl, hi.2.2⟩ (List.nil_append (inp.items.take out.cap)).symm
  rw [State.tagReturn_setTag, List.length_take, Nat.min_comm, Tag.setCall_self hi.2.1] at hrun
  exact (runTurns_cons_of hstart).trans hrun

/-- A call with room for all of its items returns what the stream function makes of them. -/
theorem tagCallRun_of_le {s : State} {h : Nat} {t : Tag} {xs : List Item} {cap : Nat} (hi : idleTag s h t)
    (hf : fits s { items := xs, base := none } { cap := cap, base := none } = true) (hlen : xs.length ≤ cap) :
    tagCallRun s h { items := xs, base := none } { cap := cap, base := none } =
      .next (s.tagReturn h t { cap := cap, base := none } xs) := by
  rw [tagCallIsTheStreamFunction s h t _ _ hi hf, List.take_of_length_le hlen]

/-! ## The annotations of a call -/

/-- A batch that goes beyond the items `xs` holds the next item, and some of the rest. -/
theorem exists_take_append_cons {xs : List Item} {n : Nat} (x : Item) (ys : List Item) (hn : xs.length < n) :
    ∃ ys', (xs ++ x :: ys).take n = xs ++ x :: ys' := by
  obtain ⟨d, rfl⟩ := Nat.exists_eq_add_of_lt hn
  exact ⟨ys.take d, by rw [Nat.add_assoc, List.take_length_add_append, List.take_succ_cons]⟩

/-- Settles O39: both markers are in the batch, and the data items before the second one are `pre`'s and `mid`'s. -/
theorem annotationOffsetsCountDataItems : Obligations.AnnotationOffsetsCountDataItems := by
  intro s h t pre mid post t1 t2 cap hi hf hcap
  have hlen : (pre ++ markerItem t1 :: mid).length < cap := by
    rw [List.length_append, List.length_cons]
    omega
  obtain ⟨post', hbatch⟩ := exists_take_append_cons (markerItem t2) post hlen
  have hrun := tagCallIsTheStreamFunction s h t _ _ hi hf
  rw [hbatch] at hrun
  have ha := tagAnns_getElem?_marker (isMarker_markerItem t1) t.itemsWrittenTotal pre (mid ++ markerItem t2 :: post')
  have hb := tagAnns_getElem?_marker (isMarker_markerItem t2) t.itemsWrittenTotal (pre ++ markerItem t1 :: mid) post'
  rw [ticksOf_markerItem] at ha hb
  rw [dataItems_append, dataItems_marker (isMarker_markerItem t1), List.length_append, BitVec.ofNat_add,
    ← BitVec.add_assoc] at hb
  have hlt : (tagAnns t.itemsWrittenTotal pre).length <
      (tagAnns t.itemsWrittenTotal (pre ++ markerItem t1 :: mid)).length := by
    rw [tagAnns_append, tagAnns_marker (isMarker_markerItem t1)]
    simp
  refine ⟨_, _, _, _, _, _, _, _, _, hrun, rfl, hlt, ?_, hb, rfl, rfl⟩
  rw [List.append_assoc, List.cons_append]
  exact ha

/-- Settles O40: every item of the batch is written or annotated. -/
theorem tagCallConservesItems : Obligations.TagCallConservesItems := by
  intro s h t inp out hi hf
  rw [Nat.min_comm, ← List.length_take]
  exact ⟨_, _, _, _, tagCallIsTheStreamFunction s h t inp out hi hf, rfl, length_dataItems_add_tagAnns _ _,
    slotsOf_length _⟩

/-- Settles O41: the batch of both calls is `xs`. -/
theorem tagReadsOnlyTheBatch : Obligations.TagReadsOnlyTheBatch := by
  intro s h t xs ys zs cap hi hlen hfy hfz
  refine ⟨_, tagCallIsTheStreamFunction s h t _ _ hi hfy, ?_⟩
  rw [tagCallIsTheStreamFunction s h t _ _ hi hfz, List.take_left' hlen, List.take_left' hlen]

/-- A TAG is idle again after a whole call. -/
theorem idleTag_tagReturn {s : State} {h : Nat} {t : Tag} (hi : idleTag s h t) (out : OutSpec) (xs : List Item) :
    idleTag (s.tagReturn h t out xs) h
      { t with itemsWrittenTotal := t.itemsWrittenTotal + BitVec.ofNat 64 (dataItems xs).length } :=
  ⟨State.setTag_self hi.1, hi.2⟩

/-- Settles O42: the second call goes on from the total that the first one left. -/
theorem tagSplitCallsGiveTheSameStream : Obligations.TagSplitCallsGiveTheSameStream := by
  intro s h t xs ys b1 b2 cap hi hx hy hcap hf hf1 hf2
  have hi1 := idleTag_tagReturn hi { cap := b1, base := none } xs
  have hi2 := idleTag_tagReturn hi1 { cap := b2, base := none } ys
  have hi' := idleTag_tagReturn hi { cap := cap, base := none } (xs ++ ys)
  rw [dataItems_append, List.length_append, BitVec.ofNat_add, ← BitVec.add_assoc] at hi'
  refine ⟨_, _, _, _, _, _, _, _, _, _, tagCallRun_of_le hi hf1 hx, rfl, tagCallRun_of_le hi1 hf2 hy, rfl,
    tagCallRun_of_le hi hf (by rwa [List.length_append]), ?_, hi2.1, hi'.1⟩
  simp [State.tagReturn, tagAnns_append]

end Sys2Proof.Machine
end

section
/-! The host contract (60_exceptions.md R224, R231, R232): which requests are refused and by which name, what a refusal
leaves, and that nothing moves between calls. -/

namespace Sys2Proof.Machine

/-! ## Operations on a PAD or TAG that was never constructed -/

theorem State.inst_pad_eq_none {s : State} {h : Nat} : s.inst (.pad h) = none ↔ s.pads.length ≤ h := by
  simp [State.inst]

theorem State.inst_tag_eq_none {s : State} {h : Nat} : s.inst (.tag h) = none ↔ s.tags.length ≤ h := by
  simp [State.inst]

theorem State.onPad_of_none {s : State} {h : Nat} (hnone : s.inst (.pad h) = none) (act : Pad → Result State) :
    s.onPad h act = .refused .notConstructed := by
  simp [State.onPad, List.getElem?_eq_none (State.inst_pad_eq_none.1 hnone)]

theorem State.onTag_of_none {s : State} {h : Nat} (hnone : s.inst (.tag h) = none) (act : Tag → Result State) :
    s.onTag h act = .refused .notConstructed := by
  simp [State.onTag, List.getElem?_eq_none (State.inst_tag_eq_none.1 hnone)]

/-- Every operation about a PAD or TAG goes through `onPad` or `onTag`: what these answer whatever the action, it
answers. -/
theorem exec_of_agent {s : State} {i : Instr} {b : AgentId} {res : Result State} (hi : instrAgent? i = some b)
    (hpad : ∀ h, b = .pad h → ∀ act, s.onPad h act = res)
    (htag : ∀ h, b = .tag h → ∀ act, s.onTag h act = res) :
    exec i s = res := by
  cases i with
  | decFft | decAvg | detMarker | detData | padConstruct | tagConstruct => cases hi
  | padCall | padDrain | padMarker | padData | padStatus => exact hpad _ (Option.some.inj hi).symm _
  | tagCall | tagMarker | tagData | tagStatus => exact htag _ (Option.some.inj hi).symm _

theorem exec_of_notConstructed {s : State} {i : Instr} {b : AgentId} (hi : instrAgent? i = some b)
    (hnone : s.inst b = none) : exec i s = .refused .notConstructed :=
  exec_of_agent hi (fun _ hb => State.onPad_of_none (hb ▸ hnone)) fun _ hb => State.onTag_of_none (hb ▸ hnone)

/-! ## Calls on a busy PAD or TAG, and calls above `MAX_CALL` -/

/-- A call on a PAD in a call is refused (R151). -/
theorem execPadCall_busy {s : State} {h : Nat} {p : Pad} {c : PadCall} (hc : padInCall s h p c) (inp : InWindow)
    (out : OutSpec) : execPadCall h inp out s = .refused .concurrentCall := by
  obtain ⟨hp, hcall, hr⟩ := hc
  simp [execPadCall, State.onPad_of hp hr, unlessBusy, Pad.busy, hcall]

/-- A call on a TAG in a call is refused (R193). -/
theorem execTagCall_busy {s : State} {h : Nat} {t : Tag} {c : TagCall} (hc : tagInCall s h t c) (inp : InWindow)
    (out : OutSpec) : execTagCall h inp out s = .refused .concurrentCall := by
  obtain ⟨ht, hcall, hr⟩ := hc
  simp [execTagCall, State.onTag_of ht hr, unlessBusy, Tag.busy, hcall]

/-- A length above `MAX_CALL` is seen before the windows' alignment (log 8). -/
theorem State.ifFits_tooLarge {s : State} {inp : InWindow} {out : OutSpec} {m : Nat} (hmax : s.maxCall = some m)
    (hsize : m < inp.items.length ∨ m < out.cap) (res : Result State) :
    s.ifFits inp out res = .refused .callTooLarge :=
  if_pos (by simpa [tooLarge, hmax] using hsize)

/-- Settles O43: each refusal is the answer of one check, `onPad` or `onTag`, `unlessBusy` or `ifFits`. -/
theorem hostContractViolationsAreRefused : Obligations.HostContractViolationsAreRefused := by
  intro s h inp out
  refine ⟨fun p c hc => ⟨execPadCall_busy hc inp out, execPadStatus_busy hc⟩,
    fun t c hc => ⟨execTagCall_busy hc inp out, execTagStatus_busy hc⟩,
    fun hlen ticks x => ?_, fun hlen ticks x => ?_,
    fun m hmax hsize => ⟨fun p hi => ?_, fun t hi => ?_⟩⟩
  · have hrefused {i : Instr} (hi : instrAgent? i = some (.pad h)) :=
      exec_of_notConstructed hi (State.inst_pad_eq_none.2 hlen)
    exact ⟨hrefused rfl, hrefused rfl, hrefused rfl, hrefused rfl, hrefused rfl⟩
  · have hrefused {i : Instr} (hi : instrAgent? i = some (.tag h)) :=
      exec_of_notConstructed hi (State.inst_tag_eq_none.2 hlen)
    exact ⟨hrefused rfl, hrefused rfl, hrefused rfl, hrefused rfl⟩
  · exact (execPadCall_idle hi inp out).trans (State.ifFits_tooLarge hmax hsize _)
  · exact (execTagCall_idle hi inp out).trans (State.ifFits_tooLarge hmax hsize _)

/-! ## What is refused about a refused PAD or TAG -/

/-- The reason for which a PAD or TAG was refused, if it was constructed and refused. -/
def State.refusal? (s : State) (b : AgentId) : Option Refusal := (s.inst b).bind (Sum.elim Pad.refused Tag.refused)

theorem State.refusal?_pad_eq_some {s : State} {h : Nat} {r : Refusal} :
    s.refusal? (.pad h) = some r ↔ ∃ p, s.pads[h]? = some p ∧ p.refused = some r := by
  simp [State.refusal?, State.inst, Option.bind_eq_some_iff]

theorem State.refusal?_tag_eq_some {s : State} {h : Nat} {r : Refusal} :
    s.refusal? (.tag h) = some r ↔ ∃ t, s.tags[h]? = some t ∧ t.refused = some r := by
  simp [State.refusal?, State.inst, Option.bind_eq_some_iff]

section
variable {s : State} {r : Refusal}

theorem State.onPad_of_refused {h : Nat} (hb : s.refusal? (.pad h) = some r) (act : Pad → Result State) :
    s.onPad h act = .refused r := by
  obtain ⟨p, hp, hr⟩ := State.refusal?_pad_eq_some.1 hb
  simp [State.onPad, hp, hr]

theorem State.onTag_of_refused {h : Nat} (hb : s.refusal? (.tag h) = some r) (act : Tag → Result State) :
    s.onTag h act = .refused r := by
  obtain ⟨t, ht, hr⟩ := State.refusal?_tag_eq_some.1 hb
  simp [State.onTag, ht, hr]

/-- Every operation about a refused PAD or TAG is refused for the reason it was refused for first. -/
theorem exec_of_refused {i : Instr} {b : AgentId} (hi : instrAgent? i = some b) (hb : s.refusal? b = some r) :
    exec i s = .refused r :=
  exec_of_agent hi (fun _ he => State.onPad_of_refused (he ▸ hb)) fun _ he => State.onTag_of_refused (he ▸ hb)

theorem agentTurn_of_refused {b : AgentId} (hb : s.refusal? b = some r) : agentTurn b s = .refused r := by
  cases b with
  | pad h =>
    obtain ⟨p, hp, hr⟩ := State.refusal?_pad_eq_some.1 hb
    simp [agentTurn, padTurn, hp, hr]
  | tag h =>
    obtain ⟨t, ht, hr⟩ := State.refusal?_tag_eq_some.1 hb
    simp [agentTurn, tagTurn, ht, hr]

/-- The input window of a refused PAD or TAG is the host's own affair (log 17). -/
theorem takeTurn_hostWriteIn_of_refused {b : AgentId} (hb : s.refusal? b = some r) (k : Nat) (x : Item) :
    takeTurn (.hostWriteIn b k x) s = .next s := by
  cases b with
  | pad h =>
    obtain ⟨p, hp, hr⟩ := State.refusal?_pad_eq_some.1 hb
    simp [takeTurn, writePadIn, hp, hr]
  | tag h =>
    obtain ⟨t, ht, hr⟩ := State.refusal?_tag_eq_some.1 hb
    simp [takeTurn, writeTagIn, ht, hr]

/-- A move about a refused PAD or TAG is refused again, or changes nothing. -/
theorem takeTurn_of_refused {m : Turn} {b : AgentId} (hm : m.agent? = some b) (hb : s.refusal? b = some r) :
    takeTurn m s = .refused r ∨ takeTurn m s = .next s := by
  cases m with
  | host q => exact .inl (exec_of_refused ((instrAgent?_decode_host q).trans hm) hb)
  | agent a =>
    cases hm
    exact .inl (agentTurn_of_refused hb)
  | hostWriteIn a k x =>
    cases hm
    exact .inr (takeTurn_hostWriteIn_of_refused hb k x)

/-! ## A refused PAD or TAG stays as it is -/

/-- A move that is taken leaves a refused PAD or TAG as it was, whether it is about it or not. -/
theorem takeTurn_keeps_refused {s' : State} {m : Turn} {b : AgentId} (hb : s.refusal? b = some r)
    (hn : takeTurn m s = .next s') : s'.inst b = s.inst b := by
  by_cases hm : m.agent? = some b
  · obtain he | he := takeTurn_of_refused hm hb
    · cases he.symm.trans hn
    · rw [Host.Outcome.next.inj (he.symm.trans hn)]
  · obtain hsame | ⟨hnone, _⟩ := takeTurn_untouched hn hm
    · exact hsame
    · simp [State.refusal?, hnone] at hb

end

/-- The mark of a PAD that was refused before keeps the first reason (log 7). -/
theorem State.markRefused_pad {s : State} {h : Nat} {p : Pad} (hp : s.pads[h]? = some p) (q : Refusal) :
    s.markRefused (.pad h) q = s.setPad h { p with refused := some (p.refused.getD q) } := by
  simp [State.markRefused, hp]

/-- The mark of a TAG that was refused before keeps the first reason (log 7). -/
theorem State.markRefused_tag {s : State} {h : Nat} {t : Tag} (ht : s.tags[h]? = some t) (q : Refusal) :
    s.markRefused (.tag h) q = s.setTag h { t with refused := some (t.refused.getD q) } := by
  simp [State.markRefused, ht]

/-- A mark on one PAD or TAG does not touch another. -/
theorem State.markRefused_inst_ne {s : State} {a b : AgentId} (hab : a ≠ b) (q : Refusal) :
    (s.markRefused a q).inst b = s.inst b := by
  unfold State.markRefused
  split
  · split
    · exact State.inst_setPad_ne hab
    · rfl
  · split
    · exact State.inst_setTag_ne hab
    · rfl

theorem Pad.setRefused_self {p : Pad} {r : Refusal} (hr : p.refused = some r) (q : Refusal) :
    { p with refused := some (p.refused.getD q) } = p := by
  rw [hr, Option.getD_some, ← hr]

theorem Tag.setRefused_self {t : Tag} {r : Refusal} (hr : t.refused = some r) (q : Refusal) :
    { t with refused := some (t.refused.getD q) } = t := by
  rw [hr, Option.getD_some, ← hr]

/-- A mark leaves a refused PAD or TAG as it was: another's mark does not touch it, and it keeps its own. -/
theorem State.markRefused_keeps_refused {s : State} {r : Refusal} {b : AgentId} (hb : s.refusal? b = some r)
    (a : AgentId) (q : Refusal) : (s.markRefused a q).inst b = s.inst b := by
  obtain rfl | hab := eq_or_ne a b
  · cases a with
    | pad h =>
      obtain ⟨p, hp, hr⟩ := State.refusal?_pad_eq_some.1 hb
      rw [State.markRefused_pad hp, Pad.setRefused_self hr, State.inst_pad_inj, State.setPad_self hp, hp]
    | tag h =>
      obtain ⟨t, ht, hr⟩ := State.refusal?_tag_eq_some.1 hb
      rw [State.markRefused_tag ht, Tag.setRefused_self hr, State.inst_tag_inj, State.setTag_self ht, ht]
  · exact State.markRefused_inst_ne hab q

theorem State.afterRefusal_keeps_refused {s : State} {r : Refusal} {b : AgentId} (hb : s.refusal? b = some r)
    (m : Turn) (q : Refusal) : (s.afterRefusal m q).inst b = s.inst b := by
  unfold State.afterRefusal
  split
  · exact State.markRefused_keeps_refused hb _ q
  · rfl

/-- A host that goes on took the step, or leaves what the refusal of its move leaves. -/
theorem stepOn_next {s s' : State} (hn : stepOn s = .next s') :
    step s = .next s' ∨
      ∃ m q, s.nextTurn = some m ∧ step s = .refused q ∧ s' = s.dropTurn.afterRefusal m q := by
  unfold stepOn at hn
  split at hn
  · exact .inr ⟨_, _, ‹_›, ‹_›, (Host.Outcome.next.inj hn).symm⟩
  · exact .inl hn

/-- A host that goes on leaves a refused PAD or TAG as it was. -/
theorem stepOn_keeps_refused {s s' : State} {r : Refusal} {b : AgentId} (hb : s.refusal? b = some r)
    (hn : stepOn s = .next s') : s'.inst b = s.inst b := by
  obtain hstep | ⟨m, q, _, _, rfl⟩ := stepOn_next hn
  · obtain rfl | ⟨m, _, hm⟩ := step_next hstep
    · rfl
    · exact takeTurn_keeps_refused (s := s.dropTurn) hb hm
  · exact State.afterRefusal_keeps_refused (s := s.dropTurn) hb m q

/-- Settles O44: neither a move that is taken nor a mark changes a refused PAD or TAG. -/
theorem refusedInstanceStaysRefused : Obligations.RefusedInstanceStaysRefused := fun _ _ _ _ hn =>
  ⟨fun p hp hr =>
    (State.inst_pad_inj.1 (stepOn_keeps_refused (State.refusal?_pad_eq_some.2 ⟨p, hp, hr⟩) hn)).trans hp,
  fun t ht hr =>
    (State.inst_tag_inj.1 (stepOn_keeps_refused (State.refusal?_tag_eq_some.2 ⟨t, ht, hr⟩) hn)).trans ht⟩

/-! ## A request on a busy PAD or TAG marks it -/

/-- A scheduled move that is refused stops the step, and a host that goes on leaves what the refusal leaves. -/
theorem step_and_stepOn_of_refused {s s' : State} {m : Turn} {rest : List Turn} {q : Refusal}
    (hs : s.schedule = m :: rest) (hm : takeTurn m { s with schedule := rest } = .refused q)
    (hafter : State.afterRefusal { s with schedule := rest } m q = s') :
    step s = .refused q ∧ stepOn s = .next s' := by
  have hstep : step s = .refused q := (step_scheduled hs).trans hm
  exact ⟨hstep, by simp [stepOn, hstep, State.nextTurn, State.dropTurn, hs, hafter]⟩

/-- Settles O45: the refused request is about the busy PAD or TAG, which had no mark yet. -/
theorem concurrentCallMarksTheInstance : Obligations.ConcurrentCallMarksTheInstance := by
  intro s h inp out r rest hs
  refine ⟨fun p c hc hreq => ?_, fun t c hc hreq => ?_⟩
  · have hrest : padInCall { s with schedule := rest } h p c := hc
    obtain ⟨hp, _, hunmarked⟩ := hc
    have hmark := State.markRefused_pad (s := { s with schedule := rest }) hp .concurrentCall
    rw [hunmarked] at hmark
    obtain rfl | rfl := hreq
    · exact step_and_stepOn_of_refused hs (execPadCall_busy hrest inp out) hmark
    · exact step_and_stepOn_of_refused hs (execPadStatus_busy hrest) hmark
  · have hrest : tagInCall { s with schedule := rest } h t c := hc
    obtain ⟨ht, _, hunmarked⟩ := hc
    have hmark := State.markRefused_tag (s := { s with schedule := rest }) ht .concurrentCall
    rw [hunmarked] at hmark
    obtain rfl | rfl := hreq
    · exact step_and_stepOn_of_refused hs (execTagCall_busy hrest inp out) hmark
    · exact step_and_stepOn_of_refused hs (execTagStatus_busy hrest) hmark

/-! ## Between calls -/

/-- A PAD or TAG that is not in a call is not running. -/
theorem State.firstRunning_eq_none {s : State} (hpads : ∀ p ∈ s.pads, p.call = none)
    (htags : ∀ t ∈ s.tags, t.call = none) : s.firstRunning = none := by
  have hpad : s.pads.findIdx? Pad.running = none :=
    List.findIdx?_eq_none_iff.2 fun p hp => by simp [Pad.running, hpads p hp]
  have htag : s.tags.findIdx? Tag.running = none :=
    List.findIdx?_eq_none_iff.2 fun t ht => by simp [Tag.running, htags t ht]
  simp [State.firstRunning, hpad, htag]

/-- Settles O52: with nothing scheduled and nothing running, there is no move to take. -/
theorem betweenCallsTheStateIsHeld : Obligations.BetweenCallsTheStateIsHeld := fun s hs hpads htags => by
  rw [step_unscheduled hs, State.firstRunning_eq_none hpads htags]

end Sys2Proof.Machine
end

section
/-! The constructions and the reset (70_reset_and_hazards.md R250, R251, R253): what a construction answers, and that
the machine begins in order. -/

namespace Sys2Proof.Machine

/-! ## Constructions -/

/-- A legal rate gives one new PAD, and its handle. -/
theorem execPadConstruct_of_legalRate {rate : BitVec 64} (hl : legalRate rate = true) (s : State) :
    execPadConstruct rate s =
      .next ({ s with pads := s.pads ++ [Pad.fresh rate] }.reply (.padConstructed s.pads.length)) :=
  if_pos hl

/-- A rate that is not legal gives no PAD. -/
theorem execPadConstruct_of_not_legalRate {rate : BitVec 64} (hl : ¬ legalRate rate = true) (s : State) :
    execPadConstruct rate s = .refused .badSampleRate :=
  if_neg hl

/-- Settles O12: by `legalRate_iff`, the rates that `execPadConstruct` takes are the ones of R250. -/
theorem constructCreatesAFreshInstance : Obligations.ConstructCreatesAFreshInstance := by
  intro rate s
  refine ⟨fun hl => ?legal, fun hl => ?illegal, rfl⟩
  case legal => exact execPadConstruct_of_legalRate (legalRate_iff.2 hl) s
  case illegal => exact execPadConstruct_of_not_legalRate (mt legalRate_iff.1 hl) s

/-! ## Reset -/

/-- With no PAD, no TAG and no reply there is nothing for the invariant to fail of. -/
theorem State.reset_inv : State.reset.Inv := ⟨List.forall_mem_nil _, List.forall_mem_nil _, List.forall_mem_nil _⟩

/-- With no PAD and no TAG there is no output window. -/
theorem State.reset_memWf : State.reset.memWf := ⟨List.forall_mem_nil _, List.forall_mem_nil _⟩

/-- Settles O15: there is no instance at reset. -/
theorem resetMeetsTheInvariant : Obligations.ResetMeetsTheInvariant :=
  ⟨State.reset_inv, State.reset_memWf, rfl, rfl⟩

end Sys2Proof.Machine
end
